-- ==== Sys2Proof/Word.lean ====
section
/-! DEFINITION. The words of the core and the names its fields select: bytes, 16-bit words, opcodes, register
indices and key numbers. Every value is unsigned (rule R10). -/

namespace Sys2Proof

/-- An 8-bit value: a memory byte, a V register, a timer, a literal `nn` (rules R30, R47, R70, R103). -/
abbrev Byte := BitVec 8

/-- A 16-bit value: I, PC and a stack entry (rules R35, R41, R43). -/
abbrev Word := BitVec 16

/-- A 16-bit instruction word, bit 15 the most significant (rules R9, R100). -/
abbrev Opcode := BitVec 16

/-- The 12-bit literal address `nnn` of an opcode (rule R101). -/
abbrev Addr12 := BitVec 12

/-- The 4-bit literal `n` of an opcode (rule R101). -/
abbrev Nibble := BitVec 4

/-- A register index: index k names Vk, and no other value can be built (rule R31). -/
abbrev Reg := Fin 16

/-- A logical key 0x0 to 0xF (rule R51). -/
abbrev Key := Fin 16

/-- The keypad table: one flag per logical key, true while the key is pressed (rule R51). -/
abbrev Keypad := Vector Bool 16

/-- VF, general-purpose register and flag register (rule R32). -/
abbrev Reg.vf : Reg := 15

/-- V0, the register `Bnnn` adds (rule R204). -/
abbrev Reg.v0 : Reg := 0

end Sys2Proof
end

