-- ==== Sys2Proof/Syntax.lean ====
section
/-! DEFINITION. The instruction set: one constructor per row of spec/opcode_table.json, in the table's order (the opcode
map, rule R110). The operands are the fields of rule R101; every value of a field's type is a legal operand
(rules R31, R103), so no ill-formed instruction can be built. -/

namespace Sys2Proof

/-- The 34 instruction variants (rule R110). `x` and `y` are register fields, `nn`, `n` and `nnn` literals (rule R13). -/
inductive Instr where
  /-- `00E0` CLS (rule R181). -/
  | cls
  /-- `00EE` RET (rule R201). -/
  | ret
  /-- `1nnn` JP nnn (rule R202). -/
  | jp (nnn : Addr12)
  /-- `2nnn` CALL nnn (rule R203). -/
  | call (nnn : Addr12)
  /-- `3xnn` SE Vx, nn (rule R211). -/
  | seImm (x : Reg) (nn : Byte)
  /-- `4xnn` SNE Vx, nn (rule R212). -/
  | sneImm (x : Reg) (nn : Byte)
  /-- `5xy0` SE Vx, Vy (rule R213). -/
  | seReg (x y : Reg)
  /-- `6xnn` LD Vx, nn (rule R152). -/
  | ldImm (x : Reg) (nn : Byte)
  /-- `7xnn` ADD Vx, nn (rule R153). -/
  | addImm (x : Reg) (nn : Byte)
  /-- `8xy0` LD Vx, Vy (rule R154). -/
  | ldReg (x y : Reg)
  /-- `8xy1` OR Vx, Vy (rule R155). -/
  | orReg (x y : Reg)
  /-- `8xy2` AND Vx, Vy (rule R156). -/
  | andReg (x y : Reg)
  /-- `8xy3` XOR Vx, Vy (rule R157). -/
  | xorReg (x y : Reg)
  /-- `8xy4` ADD Vx, Vy (rule R158). -/
  | addReg (x y : Reg)
  /-- `8xy5` SUB Vx, Vy (rule R159). -/
  | subReg (x y : Reg)
  /-- `8xy6` SHR Vx {, Vy}: y is encoded but ignored (rules R106, R160). -/
  | shr (x y : Reg)
  /-- `8xy7` SUBN Vx, Vy (rule R161). -/
  | subnReg (x y : Reg)
  /-- `8xyE` SHL Vx {, Vy}: y is encoded but ignored (rules R106, R162). -/
  | shl (x y : Reg)
  /-- `9xy0` SNE Vx, Vy (rule R214). -/
  | sneReg (x y : Reg)
  /-- `Annn` LD I, nnn (rule R251). -/
  | ldI (nnn : Addr12)
  /-- `Bnnn` JP V0, nnn (rule R204). -/
  | jpV0 (nnn : Addr12)
  /-- `Cxnn` RND Vx, nn (rule R170). -/
  | rnd (x : Reg) (nn : Byte)
  /-- `Dxyn` DRW Vx, Vy, n (rule R182). -/
  | drw (x y : Reg) (n : Nibble)
  /-- `Ex9E` SKP Vx (rule R231). -/
  | skp (x : Reg)
  /-- `ExA1` SKNP Vx (rule R232). -/
  | sknp (x : Reg)
  /-- `Fx07` LD Vx, DT (rule R233). -/
  | ldVxDt (x : Reg)
  /-- `Fx0A` LD Vx, K (rule R234). -/
  | ldVxK (x : Reg)
  /-- `Fx15` LD DT, Vx (rule R235). -/
  | ldDtVx (x : Reg)
  /-- `Fx18` LD ST, Vx (rule R236). -/
  | ldStVx (x : Reg)
  /-- `Fx1E` ADD I, Vx (rule R252). -/
  | addI (x : Reg)
  /-- `Fx29` LD F, Vx (rule R253). -/
  | ldF (x : Reg)
  /-- `Fx33` LD B, Vx (rule R258). -/
  | ldB (x : Reg)
  /-- `Fx55` LD [I], Vx (rule R260). -/
  | ldMemVx (x : Reg)
  /-- `Fx65` LD Vx, [I] (rule R262). -/
  | ldVxMem (x : Reg)
  deriving DecidableEq, Repr

end Sys2Proof
end

