-- ==== Sys2Proof/Decode.lean ====
section
/-! DEFINITION. The instruction decoder (rule R106), total on any word and on any bytes and rejecting by name, and after it the
encoder, written from the formats of rule R102 and the match column of rule R110. -/

namespace Sys2Proof

/-- Why a decoder rejects. -/
inductive DecodeError where
  /-- no pattern of the opcode map matches the word: `Unknown(op)` (rules R106, R107) -/
  | unknown (op : Opcode)
  /-- fewer than two bytes are left: an opcode is two bytes (rule R100) -/
  | truncated
  deriving DecidableEq, Repr

/-! ### The fields of an opcode (rule R101) -/

/-- family = op[15:12]. -/
def Opcode.family (op : Opcode) : Nibble := op.extractLsb' 12 4
/-- x = op[11:8]. -/
def Opcode.x (op : Opcode) : Reg := (op.extractLsb' 8 4).toFin
/-- y = op[7:4]. -/
def Opcode.y (op : Opcode) : Reg := (op.extractLsb' 4 4).toFin
/-- n = op[3:0]. -/
def Opcode.n (op : Opcode) : Nibble := op.extractLsb' 0 4
/-- nn = op[7:0]. -/
def Opcode.nn (op : Opcode) : Byte := op.extractLsb' 0 8
/-- nnn = op[11:0]. -/
def Opcode.nnn (op : Opcode) : Addr12 := op.extractLsb' 0 12

/-- Family 0 is selected by the whole word (rule R104). -/
def decodeSystem (op : Opcode) : Except DecodeError Instr :=
  if op = 0x00E0 then .ok .cls else if op = 0x00EE then .ok .ret else .error (.unknown op)

/-- Family 8 is selected by op[3:0] (rules R104, R105). PRESUMED: the low nibble of each operation is the spec's general
knowledge G2 (log entry 16, unsafe). -/
def decodeAlu (op : Opcode) : Except DecodeError Instr :=
  match Opcode.n op with
  | 0x0#4 => .ok (.ldReg (Opcode.x op) (Opcode.y op))
  | 0x1#4 => .ok (.orReg (Opcode.x op) (Opcode.y op))
  | 0x2#4 => .ok (.andReg (Opcode.x op) (Opcode.y op))
  | 0x3#4 => .ok (.xorReg (Opcode.x op) (Opcode.y op))
  | 0x4#4 => .ok (.addReg (Opcode.x op) (Opcode.y op))
  | 0x5#4 => .ok (.subReg (Opcode.x op) (Opcode.y op))
  | 0x6#4 => .ok (.shr (Opcode.x op) (Opcode.y op))
  | 0x7#4 => .ok (.subnReg (Opcode.x op) (Opcode.y op))
  | 0xE#4 => .ok (.shl (Opcode.x op) (Opcode.y op))
  | _ => .error (.unknown op)

/-- Family E is selected by op[7:0] (rule R104). -/
def decodeKeys (op : Opcode) : Except DecodeError Instr :=
  match Opcode.nn op with
  | 0x9E#8 => .ok (.skp (Opcode.x op))
  | 0xA1#8 => .ok (.sknp (Opcode.x op))
  | _ => .error (.unknown op)

/-- Family F is selected by op[7:0] (rule R104). -/
def decodeMisc (op : Opcode) : Except DecodeError Instr :=
  match Opcode.nn op with
  | 0x07#8 => .ok (.ldVxDt (Opcode.x op))
  | 0x0A#8 => .ok (.ldVxK (Opcode.x op))
  | 0x15#8 => .ok (.ldDtVx (Opcode.x op))
  | 0x18#8 => .ok (.ldStVx (Opcode.x op))
  | 0x1E#8 => .ok (.addI (Opcode.x op))
  | 0x29#8 => .ok (.ldF (Opcode.x op))
  | 0x33#8 => .ok (.ldB (Opcode.x op))
  | 0x55#8 => .ok (.ldMemVx (Opcode.x op))
  | 0x65#8 => .ok (.ldVxMem (Opcode.x op))
  | _ => .error (.unknown op)

/-- The decoder: a pure, total function from a 16-bit word to an instruction or `Unknown(op)` (rules R62, R106). The
match is strict, `5xyN` and `9xyN` with N ≠ 0 included: UNVERIFIED, the spec's own decision D9 (log entry 17, safe). -/
def decode (op : Opcode) : Except DecodeError Instr :=
  match Opcode.family op with
  | 0x0#4 => decodeSystem op
  | 0x1#4 => .ok (.jp (Opcode.nnn op))
  | 0x2#4 => .ok (.call (Opcode.nnn op))
  | 0x3#4 => .ok (.seImm (Opcode.x op) (Opcode.nn op))
  | 0x4#4 => .ok (.sneImm (Opcode.x op) (Opcode.nn op))
  | 0x5#4 => if Opcode.n op = 0 then .ok (.seReg (Opcode.x op) (Opcode.y op)) else .error (.unknown op)
  | 0x6#4 => .ok (.ldImm (Opcode.x op) (Opcode.nn op))
  | 0x7#4 => .ok (.addImm (Opcode.x op) (Opcode.nn op))
  | 0x8#4 => decodeAlu op
  | 0x9#4 => if Opcode.n op = 0 then .ok (.sneReg (Opcode.x op) (Opcode.y op)) else .error (.unknown op)
  | 0xA#4 => .ok (.ldI (Opcode.nnn op))
  | 0xB#4 => .ok (.jpV0 (Opcode.nnn op))
  | 0xC#4 => .ok (.rnd (Opcode.x op) (Opcode.nn op))
  | 0xD#4 => .ok (.drw (Opcode.x op) (Opcode.y op) (Opcode.n op))
  | 0xE#4 => decodeKeys op
  | _ => decodeMisc op

/-- `hi ++ lo`: the opcode whose high byte is `hi` (rules R11, R74). -/
def joinBytes (hi lo : Byte) : Opcode := BitVec.ofNat 16 (hi.toNat * 0x100 + lo.toNat)

/-- The byte at the lower address, bits 15..8 (rules R74, R112). -/
def highByte (op : Opcode) : Byte := op.extractLsb' 8 8

/-- The byte at the higher address, bits 7..0 (rules R74, R112). -/
def lowByte (op : Opcode) : Byte := op.extractLsb' 0 8

/-- The decoder on a list of bytes: the first two, high byte first, and the rest (rules R74, R100). -/
def decodeBytes : List Byte → Except DecodeError (Instr × List Byte)
  | hi :: lo :: rest =>
    match decode (joinBytes hi lo) with
    | .ok i => .ok (i, rest)
    | .error e => .error e
  | _ => .error .truncated

/-- A word as the table numbers its bits (bit 0 the least significant of the one 16-bit word), the bits from `nbits` up zero. -/
def tableWord (nbits w : Nat) : Opcode := BitVec.ofNat 16 (w % 2 ^ nbits)

/-- What the decoder reads from the two bytes of a table word, laid out high byte first (rule R112). -/
def decodeTableWord (nbits w : Nat) : Option Instr :=
  match decodeBytes [highByte (tableWord nbits w), lowByte (tableWord nbits w)] with
  | .ok (i, _) => some i
  | .error _ => none

/-! ### The encoder -/

/-- Format A: `ffff nnnn nnnn nnnn` (rule R102). -/
def packA (family : Nat) (nnn : Addr12) : Opcode := BitVec.ofNat 16 (family * 0x1000 + nnn.toNat)

/-- Formats XI and XK: `ffff xxxx iiii iiii` (rule R102); for XK the low byte is the fixed selector. -/
def packXI (family : Nat) (x : Reg) (nn : Byte) : Opcode :=
  BitVec.ofNat 16 (family * 0x1000 + x.val * 0x100 + nn.toNat)

/-- Formats XY and XYN: `ffff xxxx yyyy nnnn` (rule R102); for XY the low nibble is the fixed selector. -/
def packXYN (family : Nat) (x y : Reg) (n : Nibble) : Opcode :=
  BitVec.ofNat 16 (family * 0x1000 + x.val * 0x100 + y.val * 0x10 + n.toNat)

/-- The word an assembler emits for an instruction (rules R102, R110, R112). -/
def encode : Instr → Opcode
  | .cls => 0x00E0
  | .ret => 0x00EE
  | .jp nnn => packA 0x1 nnn
  | .call nnn => packA 0x2 nnn
  | .seImm x nn => packXI 0x3 x nn
  | .sneImm x nn => packXI 0x4 x nn
  | .seReg x y => packXYN 0x5 x y 0x0#4
  | .ldImm x nn => packXI 0x6 x nn
  | .addImm x nn => packXI 0x7 x nn
  | .ldReg x y => packXYN 0x8 x y 0x0#4
  | .orReg x y => packXYN 0x8 x y 0x1#4
  | .andReg x y => packXYN 0x8 x y 0x2#4
  | .xorReg x y => packXYN 0x8 x y 0x3#4
  | .addReg x y => packXYN 0x8 x y 0x4#4
  | .subReg x y => packXYN 0x8 x y 0x5#4
  | .shr x y => packXYN 0x8 x y 0x6#4
  | .subnReg x y => packXYN 0x8 x y 0x7#4
  | .shl x y => packXYN 0x8 x y 0xE#4
  | .sneReg x y => packXYN 0x9 x y 0x0#4
  | .ldI nnn => packA 0xA nnn
  | .jpV0 nnn => packA 0xB nnn
  | .rnd x nn => packXI 0xC x nn
  | .drw x y n => packXYN 0xD x y n
  | .skp x => packXI 0xE x 0x9E#8
  | .sknp x => packXI 0xE x 0xA1#8
  | .ldVxDt x => packXI 0xF x 0x07#8
  | .ldVxK x => packXI 0xF x 0x0A#8
  | .ldDtVx x => packXI 0xF x 0x15#8
  | .ldStVx x => packXI 0xF x 0x18#8
  | .addI x => packXI 0xF x 0x1E#8
  | .ldF x => packXI 0xF x 0x29#8
  | .ldB x => packXI 0xF x 0x33#8
  | .ldMemVx x => packXI 0xF x 0x55#8
  | .ldVxMem x => packXI 0xF x 0x65#8

/-- The two bytes of an instruction as memory holds them, high byte first (rule R112). -/
def encodeBytes (i : Instr) : List Byte := [highByte (encode i), lowByte (encode i)]

end Sys2Proof
end

