-- ==== Sys2Proof/Config.lean ====
section
/-! DEFINITION. What is fixed for this hardware and what the spec leaves free: the fixed sizes of rule R7, the turns the
agents take (rule R285), and the free values, which are constants without a body, so that no proof can use what they are.
The parameters of rule R8 that carry a value for this hardware (STACK_DEPTH, FONT, FX29_MASK) stand in Machine/Params.lean;
INSTR_RATE and TIMER_HZ are timing only and no rule depends on them (rules R8, R315; log entry 29). -/

namespace Sys2Proof

/-- MEM_SIZE: the number of bytes of memory (rule R7). -/
abbrev Config.memSize : Nat := 4096

/-- PROGRAM_BASE: where a ROM is loaded and where PC starts (rules R7, R301, R302). -/
abbrev Config.programBase : Nat := 0x200

/-- FONT_BASE: where the font table lies (rule R7). -/
abbrev Config.fontBase : Nat := 0x000

/-- FONT_GLYPH_BYTES: the bytes of one glyph (rule R7). -/
abbrev Config.fontGlyphBytes : Nat := 5

/-- The largest ROM that loads: 4096 − 512 bytes (rule R303). -/
abbrev Config.maxRom : Nat := 3584

/-- One turn of the scheduler that interleaves the two agents (rule R285): an instruction step, with the keypad snapshot
that the host refreshed before it (rules R136, R286), or one timer tick (rule R49). -/
inductive Turn where
  /-- the instruction agent takes one step and sees this keypad snapshot -/
  | instruction (key : Keypad)
  /-- the timer agent takes one tick -/
  | tick
  deriving DecidableEq, Repr, Inhabited

/-- FREE VALUE: which agent takes the turn numbered by the draw counter, and what the keypad then holds. The spec admits
every interleaving and every snapshot (rules R285, R286; log entries 2 and 3). -/
opaque Config.turn : Nat → Turn

/-- FREE VALUE: RNG, the random byte of a `Cxnn` (rules R8, R170; log entry 4). -/
opaque Config.randomByte : Nat → Byte

/-- FREE VALUE: KEY_CHOICE, which of several pressed keys an `Fx0A` captures (rules R8, R234; log entry 5). -/
opaque Config.keyChoice : Nat → Nat

end Sys2Proof
end

