-- ==== Sys2Proof/Machine/State.lean ====
section
/-! DEFINITION. The state of the core (rule R55), what a step can stop with, and the state after reset (rule R56). Plain data:
two states can be compared and a state can be written out. -/

namespace Sys2Proof.Machine

/-- The 4096-byte store (rule R70) as (address, byte) pairs, addresses strictly rising, holding exactly the bytes that
differ from the start contents (Machine/Ops.lean: Memory.initial, Memory.wf). -/
abbrev Memory := List Host.Cell

/-- The 64 × 32 grid of cells, row-major: 32 rows of 64 columns (rule R50). -/
abbrev Display := Vector (Vector Bool 64) 32

/-- The fatal conditions of rule R271, each with what rule R273 records of it. All are unconditionally fatal (rule R270): the
step that raises one stops, no state is answered (rule R282) and no further step is taken (rule R272). Each is safe: the
spec stops here too. -/
inductive Fault where
  /-- Code 1. Raised by step: the fetched word decodes to no instruction (rules R107, R274). Safe. -/
  | unknownOpcode (pc : Word) (opcode : Opcode)
  /-- Code 2. Raised by RET with an empty stack (rules R201, R275). Safe. -/
  | stackUnderflow (pc : Word) (opcode : Opcode)
  /-- Code 3. Raised by DRW, LD B, LD [I] and LD Vx, [I] at the first byte address outside 0–4095 (rules R72, R277). Safe. -/
  | outOfBounds (pc : Word) (opcode : Opcode) (addr : Nat)
  /-- Code 3. Raised by the fetch when PC or PC + 1 is outside 0–4095; no opcode is recorded (rule R132). Safe. -/
  | fetchOutOfBounds (pc : Word) (addr : Nat)
  /-- Code 3. Raised by the initial load of a ROM that is too large; no pc and no opcode (rule R295). Safe. -/
  | loadOutOfBounds (addr : Nat)
  /-- Code 5. Raised by CALL on a full stack, only when STACK_DEPTH bounds the stack (rules R44, R278). Safe. -/
  | stackOverflow (pc : Word) (opcode : Opcode)
  /-- Code 6. Raised by SKP and SKNP when Vx > 15 (rules R230, R279). Safe. -/
  | keyIndexOutOfRange (pc : Word) (opcode : Opcode) (value : Byte)
  /-- Code 7. Raised by ADD I, Vx when I + Vx > 0xFFFF (rules R252, R280). Safe. -/
  | indexOverflow (pc : Word) (opcode : Opcode)
  deriving DecidableEq, Repr

/-- What the model gives no meaning. -/
inductive Refusal where
  /-- Raised by exec for an instruction that has no meaning yet, by the table's mnemonic; no arm raises it. Safe. -/
  | notModelled (mnemonic : String)
  deriving DecidableEq, Repr

/-- The run state (rule R54). -/
inductive RunState where
  /-- steps are taken -/
  | running
  /-- a fatal condition was raised; no step of any agent follows -/
  | halted (f : Fault)
  deriving DecidableEq, Repr

/-- The architectural state of rule R55, and below it the host's inputs and the model's own two fields. -/
structure State where
  /-- memory (rule R70) -/
  mem : Memory
  /-- V0 to VF (rule R30) -/
  v : Vector Byte 16
  /-- the index register I (rule R41) -/
  i : Word
  /-- the program counter PC (rule R35) -/
  pc : Word
  /-- the return addresses, head = top (rule R43) -/
  stack : List Word
  /-- the delay timer DT (rule R47) -/
  dt : Byte
  /-- the sound timer ST (rule R48) -/
  st : Byte
  /-- the display (rule R50) -/
  disp : Display
  /-- the run state (rule R54) -/
  run : RunState
  /-- the host's keypad snapshot that the instruction step sees (rule R51) -/
  key : Keypad
  /-- the model's own: the turns already settled, oldest first; past its end each turn is a free value (log entry 2) -/
  script : List Turn
  /-- the model's own: how many free values have been drawn (log entries 2, 4 and 5) -/
  draws : Nat
  deriving DecidableEq, Repr

/-- The state before the first step with the default FONT and an empty ROM (rules R56, R300 to R304); a FONT and a ROM
are placed by State.load (Machine/Ops.lean). UNVERIFIED: the zeros of V, I, DT, ST, the empty stack and the released keys are the spec's own decision D3
(log entry 12, unsafe). DEDUCED: PC is the spec's derivation R302 (log entry 14, unsafe). `script` and `draws` are the model's
own (log entry 8). -/
def State.reset : State where
  mem := []
  v := Vector.replicate 16 0
  i := 0
  pc := 0x200
  stack := []
  dt := 0
  st := 0
  disp := Vector.replicate 32 (Vector.replicate 64 false)
  run := .running
  key := Vector.replicate 16 false
  script := []
  draws := 0

/-- What an instruction's meaning answers. -/
abbrev Result := Host.Outcome State Fault Refusal

end Sys2Proof.Machine
end

