-- ==== Sys2Proof/Machine/Params.lean ====
section
/-! DEFINITION. The parameters of rule R8 that carry a value for this hardware. Every operation that depends on one takes it as
an argument or cites it by name, so that a claim that depends on a parameter's value names it (rule R78). -/

namespace Sys2Proof.Machine

/-- STACK_DEPTH: `none`, unbounded, for this hardware; `some k` bounds the stack at k entries (rules R8, R43).
UNVERIFIED: the spec's own decision D22 (log entry 11, unsafe). -/
def stackDepth : Option Nat := none

/-- FX29_MASK: false for this hardware, so that `Fx29` does not mask Vx (rules R8, R253).
UNVERIFIED: the spec's own decision D16 (log entry 11, unsafe). -/
def fx29Mask : Bool := false

/-- The type of the parameter FONT: 80 bytes, five for each digit 0 to F (rules R8, R78). -/
abbrev FontTable := Vector Byte 80

/-- The bytes of the standard CHIP-8 font, digit by digit (rule R78). -/
def fontBytes : List Byte :=
  [0xF0, 0x90, 0x90, 0x90, 0xF0] ++ [0x20, 0x60, 0x20, 0x20, 0x70] ++
  [0xF0, 0x10, 0xF0, 0x80, 0xF0] ++ [0xF0, 0x10, 0xF0, 0x10, 0xF0] ++
  [0x90, 0x90, 0xF0, 0x10, 0x10] ++ [0xF0, 0x80, 0xF0, 0x10, 0xF0] ++
  [0xF0, 0x80, 0xF0, 0x90, 0xF0] ++ [0xF0, 0x10, 0x20, 0x40, 0x40] ++
  [0xF0, 0x90, 0xF0, 0x90, 0xF0] ++ [0xF0, 0x90, 0xF0, 0x10, 0xF0] ++
  [0xF0, 0x90, 0xF0, 0x90, 0x90] ++ [0xE0, 0x90, 0xE0, 0x90, 0xE0] ++
  [0xF0, 0x80, 0x80, 0x80, 0xF0] ++ [0xE0, 0x90, 0x90, 0x90, 0xE0] ++
  [0xF0, 0x80, 0xF0, 0x80, 0xF0] ++ [0xF0, 0x80, 0xF0, 0x80, 0x80]

/-- The default value of FONT (rules R8, R78); State.load takes any other as its argument.
PRESUMED: the spec marks the bytes as general knowledge, not in its source (log entry 7, unsafe). -/
def font : FontTable := ⟨fontBytes.toArray, rfl⟩

end Sys2Proof.Machine
end

