-- ==== Sys2Proof/Machine/Ops.lean ====
section
/-! DEFINITION. The named operations over memory, registers, the stack, the timers and the display (the block interfaces of
rules R60 to R69), raising a fatal condition, the initial load and the fetch. Everything that touches the state goes through
these. -/

namespace Sys2Proof.Machine

/-! ### Memory (memory_read_write, rule R66) -/

/-- The start contents of an address outside the program under a FONT: its byte at 0x000–0x04F, else 0x00 (rules R56, R78).
UNVERIFIED: the zeros of 0x050–0x1FF are the spec's own decision D4 (log entry 13, unsafe). -/
def Memory.startContents (font : FontTable) (a : Nat) : Byte := if h : a < 80 then font[a] else 0

/-- What an address that the list does not name reads as: the contents of State.reset, which takes the default FONT. Another FONT
is listed where its bytes differ (State.load; log entry 13). -/
def Memory.initial (a : Nat) : Byte := Memory.startContents Machine.font a

/-- The byte at an address: the listed one, else the start contents (rule R80). The bounds check is memRead's. -/
def Memory.read : Memory → Nat → Byte
  | [], a => Memory.initial a
  | (k, b) :: rest, a => if k = a then b else Memory.read rest a

/-- The cells but those at address a. -/
def Memory.erase (m : Memory) (a : Nat) : Memory := m.filter (fun c => c.1 != a)

/-- Lists the cell (a, b) before the first cell with a higher address. -/
def Memory.insert : Memory → Nat → Byte → Memory
  | [], a, b => [(a, b)]
  | (k, c) :: rest, a, b => if a < k then (a, b) :: (k, c) :: rest else (k, c) :: Memory.insert rest a b

/-- `mem[a] <- b`, keeping the canonical form: a byte equal to the start contents is not listed. -/
def Memory.write (m : Memory) (a : Nat) (b : Byte) : Memory :=
  if b = Memory.initial a then Memory.erase m a else Memory.insert (Memory.erase m a) a b

/-- The canonical form: every listed address exists (rule R70), the addresses rise strictly, and no listed byte equals the
start contents. -/
def Memory.wf (m : Memory) : Bool :=
  m.all (fun c => decide (c.1 < Config.memSize) && c.2 != Memory.initial c.1) &&
    decide (m.Pairwise (fun c d => c.1 < d.1))

/-- `MemRead(a, 1)`: the byte, or the out-of-range address (rule R72). -/
def memRead (m : Memory) (a : Nat) : Except Nat Byte :=
  if a < Config.memSize then .ok (m.read a) else .error a

/-- `MemWrite(a, 1, b)`: the memory after it, or the out-of-range address (rule R72). -/
def memWrite (m : Memory) (a : Nat) (b : Byte) : Except Nat Memory :=
  if a < Config.memSize then .ok (m.write a b) else .error a

/-- The n bytes at a, a + 1, …, read in ascending order, or the first out-of-range address (rules R73, R250). Addresses are
natural numbers and do not wrap: UNVERIFIED, the spec's own decision D8 (log entry 24, safe). -/
def readBlock (m : Memory) (a : Nat) : Nat → Except Nat (List Byte)
  | 0 => .ok []
  | n + 1 =>
    match memRead m a with
    | .error e => .error e
    | .ok b =>
      match readBlock m (a + 1) n with
      | .error e => .error e
      | .ok bs => .ok (b :: bs)

/-- Writes bytes at a, a + 1, … in ascending order, or answers the first out-of-range address (rules R73, R250). -/
def writeBlock (m : Memory) (a : Nat) : List Byte → Except Nat Memory
  | [] => .ok m
  | b :: bs =>
    match memWrite m a b with
    | .error e => .error e
    | .ok m' => writeBlock m' (a + 1) bs

/-! ### Registers (register_file, rule R63) -/

/-- `V[x]`. -/
def State.getV (s : State) (x : Reg) : Byte := s.v[x]

/-- `V[x] <- b`. -/
def State.setV (s : State) (x : Reg) (b : Byte) : State := { s with v := s.v.set x b }

/-- `I <- w`. -/
def State.setI (s : State) (w : Word) : State := { s with i := w }

/-- `PC <- w`: no bounds check, which is the fetch's (rule R39), and no alignment (rule R38).
UNVERIFIED: the spec's own decisions D6 and D7 (log entry 23, unsafe). -/
def State.setPc (s : State) (w : Word) : State := { s with pc := w }

/-- `PC <- PC + 2`, the skip of rule R210. -/
def State.skip (s : State) : State := s.setPc (s.pc + 2)

/-- `mem <- m`. -/
def State.setMem (s : State) (m : Memory) : State := { s with mem := m }

/-- The bytes of V0..Vx in numeric order (rules R260, R263). -/
def State.regsUpTo (s : State) (x : Reg) : List Byte := s.v.toList.take (x.val + 1)

/-- `V[k] <- b, V[k+1] <- b', …` in numeric order (rules R262, R263). -/
def writeRegs (v : Vector Byte 16) (k : Nat) : List Byte → Vector Byte 16
  | [] => v
  | b :: bs => writeRegs (v.setIfInBounds k b) (k + 1) bs

/-- `V[0] <- b, V[1] <- b', …`: the ordered list of writes of a block load. -/
def State.loadRegs (s : State) (bs : List Byte) : State := { s with v := writeRegs s.v 0 bs }

/-! ### Stack (stack_lifo, rule R65) -/

/-- `Push(w)` under a depth bound: `none` when the stack is full (rule R44). -/
def pushWithin (depth : Option Nat) (stack : List Word) (w : Word) : Option (List Word) :=
  match depth with
  | none => some (w :: stack)
  | some k => if k ≤ stack.length then none else some (w :: stack)

/-- `Pop()`: the top entry and the rest, `none` when the stack is empty (rule R45). -/
def popTop : List Word → Option (Word × List Word)
  | [] => none
  | w :: rest => some (w, rest)

/-- `stack <- l`. -/
def State.setStack (s : State) (l : List Word) : State := { s with stack := l }

/-! ### Timers (rules R47 to R49) -/

/-- One step of a countdown toward zero, never below it (rule R49). -/
def countDown (t : Byte) : Byte := if t = 0 then 0 else t - 1

/-- The timer tick: one tick acts on both timers (rule R49).
UNVERIFIED: the spec's own decision D21 (log entry 27, unsafe). -/
def State.tick (s : State) : State := { s with dt := countDown s.dt, st := countDown s.st }

/-- `DT <- b`. -/
def State.setDt (s : State) (b : Byte) : State := { s with dt := b }

/-- `ST <- b`. -/
def State.setSt (s : State) (b : Byte) : State := { s with st := b }

/-! ### Display (rule R67) -/

/-- All cells false. -/
def clearDisplay : Display := Vector.replicate 32 (Vector.replicate 64 false)

/-- `Disp[x][y]`, column x and row y. -/
def readCell (d : Display) (x : Fin 64) (y : Fin 32) : Bool := d[y][x]

/-- `Disp[x][y] <- b`. -/
def writeCell (d : Display) (x : Fin 64) (y : Fin 32) (b : Bool) : Display := d.set y (d[y].set x b)

/-- One pixel of a sprite at column x and row y, given the cells and whether a collision happened so far: a pixel outside
the grid is clipped; a set sprite bit turns a lit cell off, which is a collision, and an unlit cell on; an unset bit does
nothing (rules R182, R185). -/
def drawPixel (x y : Nat) (bit : Bool) (dc : Display × Bool) : Display × Bool :=
  if hx : x < 64 then
    if hy : y < 32 then
      if bit then
        if readCell dc.1 ⟨x, hx⟩ ⟨y, hy⟩ then (writeCell dc.1 ⟨x, hx⟩ ⟨y, hy⟩ false, true)
        else (writeCell dc.1 ⟨x, hx⟩ ⟨y, hy⟩ true, dc.2)
      else dc
    else dc
  else dc

/-- The columns b, b + 1, …, 7 of one sprite row (`left` of them), column b from bit 7 − b of the byte (rule R185).
PRESUMED: the bit order is the spec's general knowledge G5 (log entry 18, unsafe). -/
def drawColumns (x0 y : Nat) (byte : Byte) : (left : Nat) → Display × Bool → Display × Bool
  | 0, dc => dc
  | left + 1, dc =>
    drawColumns x0 y byte left (drawPixel (x0 + (7 - left)) y (byte.getLsbD left) dc)

/-- The rows of a sprite from row y down, each of eight columns from column x0 (rule R182). -/
def drawRows (x0 : Nat) : (y : Nat) → List Byte → Display × Bool → Display × Bool
  | _, [], dc => dc
  | y, byte :: rest, dc => drawRows x0 (y + 1) rest (drawColumns x0 y byte 8 dc)

/-- `Disp <- d`. -/
def State.setDisp (s : State) (d : Display) : State := { s with disp := d }

/-- The host's read-only view of the display, once per rendered frame (rules R67, R287; log entry 30). -/
def State.frameView (s : State) : Display := s.disp

/-! ### Free values (log entries 2, 4 and 5) -/

/-- Counts one free value as drawn. -/
def State.drawn (s : State) : State := { s with draws := s.draws + 1 }

/-! ### Fatal conditions (rules R270 to R283) -/

/-- A, the fetch address of the step whose execute phase is under way: PC holds A + 2 there (rules R36, R137; log entry 6). -/
def State.fetchAddr (s : State) : Word := s.pc - 2

/-- `raise F(info)`: the one place where a fatal condition is taken. The step stops at once; a fatal condition saves nothing,
changes no mode and transfers control nowhere, and the rest of the state is unspecified, so the answer holds the fault alone
(rules R272, R282; log entry 1). There is no return from it (rule R283). -/
def raise (f : Fault) : Result := .fault f

/-- The condition's numeric code (rule R271); code 4 is raised by nothing (rule R276).
UNVERIFIED: the codes are the spec's own decision D23 (log entry 28, unsafe). -/
def Fault.code : Fault → Nat
  | .unknownOpcode _ _ => 1
  | .stackUnderflow _ _ => 2
  | .outOfBounds _ _ _ => 3
  | .fetchOutOfBounds _ _ => 3
  | .loadOutOfBounds _ => 3
  | .stackOverflow _ _ => 5
  | .keyIndexOutOfRange _ _ _ => 6
  | .indexOverflow _ _ => 7

/-- The fetch address of the faulting step; absent for the initial load (rule R273). -/
def Fault.pc? : Fault → Option Word
  | .unknownOpcode pc _ => some pc
  | .stackUnderflow pc _ => some pc
  | .outOfBounds pc _ _ => some pc
  | .fetchOutOfBounds pc _ => some pc
  | .loadOutOfBounds _ => none
  | .stackOverflow pc _ => some pc
  | .keyIndexOutOfRange pc _ _ => some pc
  | .indexOverflow pc _ => some pc

/-- The opcode; present for every fault raised after the fetch completed (rule R273). -/
def Fault.opcode? : Fault → Option Opcode
  | .unknownOpcode _ op => some op
  | .stackUnderflow _ op => some op
  | .outOfBounds _ op _ => some op
  | .fetchOutOfBounds _ _ => none
  | .loadOutOfBounds _ => none
  | .stackOverflow _ op => some op
  | .keyIndexOutOfRange _ op _ => some op
  | .indexOverflow _ op => some op

/-- The address; present for `OutOfBounds` (rule R273). -/
def Fault.addr? : Fault → Option Nat
  | .outOfBounds _ _ a => some a
  | .fetchOutOfBounds _ a => some a
  | .loadOutOfBounds a => some a
  | _ => none

/-- The value; present for `KeyIndexOutOfRange` (rule R273). -/
def Fault.value? : Fault → Option Byte
  | .keyIndexOutOfRange _ _ v => some v
  | _ => none

/-- Goes on with the value of an access, or raises `OutOfBounds` at the address it could not reach; `i` is the instruction
under way, whose opcode is recorded (rules R72, R273). -/
def orOutOfBounds {α : Type} (s : State) (i : Instr) (access : Except Nat α) (go : α → State) : Result :=
  match access with
  | .ok a => .next (go a)
  | .error addr => raise (.outOfBounds s.fetchAddr (encode i) addr)

/-! ### The initial load (rules R301, R303, R305) -/

/-- The memory after the initial load: FONT copied to 0x000–0x04F, then the ROM to 0x200, or the out-of-range address of a ROM that
does not fit (rules R295, R301, R303). -/
def initialLoad (font : FontTable) (rom : List Byte) : Except Nat Memory :=
  match writeBlock State.reset.mem Config.fontBase font.toList with
  | .error a => .error a
  | .ok m => if Config.maxRom < rom.length then .error Config.memSize else writeBlock m Config.programBase rom

/-- The state before the first step with this FONT and this ROM; a ROM that does not fit is fatal, and the core never takes a step
(rules R56, R78, R295; log entries 7, 9 and 10). Of that halted state the run state alone may be read (rule R282). -/
def State.load (font : FontTable) (rom : List Byte) : State :=
  match initialLoad font rom with
  | .ok m => { State.reset with mem := m }
  | .error a => { State.reset with run := .halted (.loadOutOfBounds a) }

/-! ### The fetch (fetch_unit, rules R61 and R130 to R133) -/

/-- The opcode the fetch reads: the byte at PC in bits 15..8, the byte at PC + 1 in bits 7..0 (rule R74). -/
def State.opcodeAtPc (s : State) : Opcode := joinBytes (s.mem.read s.pc.toNat) (s.mem.read (s.pc.toNat + 1))

/-- The two bytes at PC and PC + 1, high byte first, and PC advanced by 2; or the fetch fault, which carries no opcode
(rules R130 to R133). UNVERIFIED: the address it reports is the spec's own decision D34 (log entry 24, unsafe). -/
def State.fetch (s : State) : Except Fault (Opcode × State) :=
  match memRead s.mem s.pc.toNat with
  | .error a => .error (.fetchOutOfBounds s.pc a)
  | .ok hi =>
    match memRead s.mem (s.pc.toNat + 1) with
    | .error a => .error (.fetchOutOfBounds s.pc a)
    | .ok lo => .ok (joinBytes hi lo, s.setPc (s.pc + 2))

/-! ### Turns (rules R285, R286) -/

/-- Whose turn it is and the state with the turn taken off the script; past the script's end the turn is a free value. -/
def State.takeTurn (s : State) : Turn × State :=
  match s.script with
  | t :: rest => (t, { s with script := rest })
  | [] => (Config.turn s.draws, s.drawn)

/-- The host's refresh of the keypad table: the snapshot the coming instruction step sees (rules R51, R286). -/
def State.refreshKeys (s : State) (k : Keypad) : State := { s with key := k }

/-! ### Placing one instruction word (log entry 10) -/

/-- Where the next fetch can succeed: PC itself, or the entry point when PC is past the last address a fetch succeeds at. -/
def State.fetchable (s : State) : State := if s.pc.toNat + 1 < Config.memSize then s else s.setPc 0x200

/-- The word's two bytes at PC and PC + 1, high byte first (rule R112). -/
def State.storeWord (s : State) (op : Opcode) : State :=
  s.setMem ((s.mem.write s.pc.toNat (highByte op)).write (s.pc.toNat + 1) (lowByte op))

/-- The word where the next fetch reads, the run state `Running`, and an instruction turn (with the keypad as it stands) put
before the script, so that the very next step fetches and runs exactly this word. -/
def State.placeWord (s : State) (op : Opcode) : State :=
  let t := s.fetchable.storeWord op
  { t with run := .running, script := .instruction t.key :: t.script }

end Sys2Proof.Machine
end

