-- ==== Sys2Proof/Machine/Operands.lean ====
section
/-! DEFINITION. The operand forms (rules R33, R34, R73, R103, R183, R200, R230, R253, R258): what an instruction computes from its
fields and registers before it writes anything. Registers are read by value, so a meaning that takes its operands from the
state it starts in cannot see its own writes (rule R34). -/

namespace Sys2Proof.Machine

/-- `zext_16(nnn)`: an absolute jump target or index value (rules R103, R200). -/
def zext16 (nnn : Addr12) : Word := nnn.setWidth 16

/-- `zext_16(nnn) + zext_16(V0)`: the target of `Bnnn`, which never wraps (rule R204). -/
def offsetTarget (nnn : Addr12) (v0 : Byte) : Word := zext16 nnn + v0.setWidth 16

/-- I as the base address of a block access, a natural number (rule R73). -/
def State.base (s : State) : Nat := s.i.toNat

/-- The number of bytes of `Fx55` and `Fx65`: x + 1 registers (rules R260, R262). -/
def blockLength (x : Reg) : Nat := x.val + 1

/-- The start column of a sprite, `V[x] AND 63` (rule R183). -/
def startColumn (vx : Byte) : Nat := (vx &&& 63).toNat

/-- The start row of a sprite, `V[y] AND 31` (rule R183). -/
def startRow (vy : Byte) : Nat := (vy &&& 31).toNat

/-- The key a register value names, if it names one (rule R230). -/
def keyIndex (vx : Byte) : Option Key := if h : vx.toNat < 16 then some ⟨vx.toNat, h⟩ else none

/-- The keys that are down, in rising order: the set P of rule R234. -/
def pressedKeys (k : Keypad) : List Key := (List.finRange 16).filter (fun j => k[j])

/-- The captured key among the pressed ones, by the choice c: every pressed key is captured for some c (rule R234). -/
def chooseKey (first : Key) (rest : List Key) (c : Nat) : Key :=
  match rest with
  | [] => first
  | _ :: _ => (first :: rest).getD (c % (first :: rest).length) first

/-- The address of the glyph of Vx, five bytes a glyph, with the low nibble alone when the parameter FX29_MASK says so
(rule R253). -/
def glyphAddress (mask : Bool) (vx : Byte) : Word :=
  BitVec.ofNat 16 (Config.fontGlyphBytes * (if mask then vx &&& 0xF else vx).toNat)

/-- The three decimal digits of a byte: hundreds, tens, ones (rule R258). -/
def bcdDigits (b : Byte) : List Byte :=
  [BitVec.ofNat 8 (b.toNat / 100), BitVec.ofNat 8 (b.toNat / 10 % 10), BitVec.ofNat 8 (b.toNat % 10)]

end Sys2Proof.Machine
end

