-- ==== Sys2Proof/Machine/Flags.lean ====
section
/-! DEFINITION. The flag computations and the alu_and_flags function (rules R64, R151). VF is the only flag (rule R40). -/

namespace Sys2Proof.Machine

/-- A flag as VF holds it: 1 or 0. -/
def flagByte (b : Bool) : Byte := if b then 1 else 0

/-- Carry: `a + b > 255` (rule R151). -/
def carryFlag (a b : Byte) : Byte := flagByte (decide (a.toNat + b.toNat > 255))

/-- No borrow: minuend ≥ subtrahend, equality included (rule R164). -/
def noBorrowFlag (minuend subtrahend : Byte) : Byte := flagByte (decide (minuend.toNat ≥ subtrahend.toNat))

/-- The bit a right shift moves out: `a AND 1` (rule R151). -/
def lowBitFlag (a : Byte) : Byte := a &&& 1

/-- The bit a left shift moves out: `(a >> 7) AND 1` (rule R151). -/
def highBitFlag (a : Byte) : Byte := (a >>> 7) &&& 1

/-- The flag of `Fx1E`: the sum leaves the 12-bit address range (rule R252). -/
def addressRangeFlag (sum : Nat) : Byte := flagByte (decide (sum > 0x0FFF))

/-- The operations of the alu_and_flags block (rule R64). -/
inductive AluOp where
  | set | or | and | xor | add | sub | subn | shr | shl
  deriving DecidableEq, Repr

/-- The 8-bit result, from a = Vx and b = Vy (rule R151). -/
def aluResult (op : AluOp) (a b : Byte) : Byte :=
  match op with
  | .set => b
  | .or => a ||| b
  | .and => a &&& b
  | .xor => a ^^^ b
  | .add => a + b
  | .sub => a - b
  | .subn => b - a
  | .shr => a >>> 1
  | .shl => a <<< 1

/-- The flag, absent for the moves and the logic operations (rule R151).
UNVERIFIED: that the logic operations have none is the spec's own decision D12 (log entry 20, unsafe). -/
def aluFlag (op : AluOp) (a b : Byte) : Option Byte :=
  match op with
  | .set => none
  | .or => none
  | .and => none
  | .xor => none
  | .add => some (carryFlag a b)
  | .sub => some (noBorrowFlag a b)
  | .subn => some (noBorrowFlag b a)
  | .shr => some (lowBitFlag a)
  | .shl => some (highBitFlag a)

/-- Writes a flag, if there is one, to VF. -/
def State.setFlag (s : State) (flag : Option Byte) : State :=
  match flag with
  | none => s
  | some f => s.setV Reg.vf f

/-- One register-to-register operation: both operands are copied first, then Vx is written, then VF (rules R34, R150).
UNVERIFIED: that VF is written last is the spec's own decision D11 (log entry 19, unsafe). -/
def State.alu (s : State) (op : AluOp) (x y : Reg) : State :=
  (s.setV x (aluResult op (s.getV x) (s.getV y))).setFlag (aluFlag op (s.getV x) (s.getV y))

end Sys2Proof.Machine
end

