-- ==== Sys2Proof/Machine/Alu.lean ====
section
/-! DEFINITION. Register loads and the ALU family: `6xnn`, `7xnn`, `8xy0` to `8xyE`, `Cxnn` (rules R150 to R170). None of them
raises a fault (rule R150). -/

namespace Sys2Proof.Machine

/-- `6xnn` LD Vx, nn (rule R152). -/
def execLdImm (x : Reg) (nn : Byte) (s : State) : Result := .next (s.setV x nn)

/-- `7xnn` ADD Vx, nn: the carry is discarded and VF is not written as a flag (rule R153).
UNVERIFIED: the spec's own decision D13 (log entry 20, unsafe). -/
def execAddImm (x : Reg) (nn : Byte) (s : State) : Result := .next (s.setV x (s.getV x + nn))

/-- `8xy0` LD Vx, Vy (rule R154). -/
def execLdReg (x y : Reg) (s : State) : Result := .next (s.alu .set x y)

/-- `8xy1` OR Vx, Vy (rule R155). -/
def execOrReg (x y : Reg) (s : State) : Result := .next (s.alu .or x y)

/-- `8xy2` AND Vx, Vy (rule R156). -/
def execAndReg (x y : Reg) (s : State) : Result := .next (s.alu .and x y)

/-- `8xy3` XOR Vx, Vy (rule R157). -/
def execXorReg (x y : Reg) (s : State) : Result := .next (s.alu .xor x y)

/-- `8xy4` ADD Vx, Vy (rule R158). -/
def execAddReg (x y : Reg) (s : State) : Result := .next (s.alu .add x y)

/-- `8xy5` SUB Vx, Vy: left minus right (rule R159). -/
def execSubReg (x y : Reg) (s : State) : Result := .next (s.alu .sub x y)

/-- `8xy6` SHR Vx {, Vy}: Vy is ignored (rule R160). -/
def execShr (x y : Reg) (s : State) : Result := .next (s.alu .shr x y)

/-- `8xy7` SUBN Vx, Vy: right minus left (rule R161). -/
def execSubnReg (x y : Reg) (s : State) : Result := .next (s.alu .subn x y)

/-- `8xyE` SHL Vx {, Vy}: Vy is ignored (rule R162). -/
def execShl (x y : Reg) (s : State) : Result := .next (s.alu .shl x y)

/-- `Cxnn` RND Vx, nn: a free byte, masked by nn (rule R170; log entry 4). -/
def execRnd (x : Reg) (nn : Byte) (s : State) : Result :=
  .next (s.drawn.setV x (Config.randomByte s.draws &&& nn))

end Sys2Proof.Machine
end

