-- ==== Sys2Proof/Machine/Block.lean ====
section
/-! DEFINITION. Index register and memory block instructions: `Annn`, `Fx1E`, `Fx29`, `Fx33`, `Fx55`, `Fx65` (rules R250 to
R263). The block instructions leave I unchanged (rule R261): UNVERIFIED, the spec's own decision D15 (log entry 25,
unsafe). -/

namespace Sys2Proof.Machine

/-- `Annn` LD I, nnn (rule R251). -/
def execLdI (nnn : Addr12) (s : State) : Result := .next (s.setI (zext16 nnn))

/-- `Fx1E` ADD I, Vx: the sum is exact; beyond 16 bits it is fatal, else I takes it and VF says whether it left the 12-bit
address range (rule R252). PRESUMED: the flag's meaning is the spec's general knowledge G6 (log entry 21, unsafe); the fault is
its own decision D14 (log entry 21, safe). -/
def execAddI (x : Reg) (s : State) : Result :=
  let sum := s.i.toNat + (s.getV x).toNat
  if sum > 0xFFFF then raise (.indexOverflow s.fetchAddr (encode (.addI x)))
  else .next ((s.setI (BitVec.ofNat 16 sum)).setV Reg.vf (addressRangeFlag sum))

/-- `Fx29` LD F, Vx (rule R253). -/
def execLdF (x : Reg) (s : State) : Result := .next (s.setI (glyphAddress fx29Mask (s.getV x)))

/-- `Fx33` LD B, Vx: the three digits at I, I + 1, I + 2 (rule R258). -/
def execLdB (x : Reg) (s : State) : Result :=
  orOutOfBounds s (.ldB x) (writeBlock s.mem s.base (bcdDigits (s.getV x))) s.setMem

/-- `Fx55` LD [I], Vx: V0..Vx at I, I + 1, … (rule R260). -/
def execLdMemVx (x : Reg) (s : State) : Result :=
  orOutOfBounds s (.ldMemVx x) (writeBlock s.mem s.base (s.regsUpTo x)) s.setMem

/-- `Fx65` LD Vx, [I]: V0..Vx from I, I + 1, … (rule R262). -/
def execLdVxMem (x : Reg) (s : State) : Result :=
  orOutOfBounds s (.ldVxMem x) (readBlock s.mem s.base (blockLength x)) s.loadRegs

end Sys2Proof.Machine
end

