-- ==== Sys2Proof/Machine/Control.lean ====
section
/-! DEFINITION. Control flow, the stack and the skips: `00EE`, `1nnn`, `2nnn`, `Bnnn`, `3xnn`, `4xnn`, `5xy0`, `9xy0` (rules R200
to R214). PC holds A + 2 when a meaning starts (rules R36, R137). -/

namespace Sys2Proof.Machine

/-- `00EE` RET: `PC <- Pop()`, or `StackUnderflow` (rule R201). -/
def execRet (s : State) : Result :=
  match popTop s.stack with
  | none => raise (.stackUnderflow s.fetchAddr (encode .ret))
  | some (w, rest) => .next ((s.setStack rest).setPc w)

/-- `1nnn` JP nnn (rule R202). -/
def execJp (nnn : Addr12) (s : State) : Result := .next (s.setPc (zext16 nnn))

/-- `Push(PC); PC <- zext_16(nnn)` under a stack depth: the advanced PC is pushed, and a full stack is fatal
(rules R44, R203, R278). -/
def callWithin (depth : Option Nat) (nnn : Addr12) (s : State) : Result :=
  match pushWithin depth s.stack s.pc with
  | none => raise (.stackOverflow s.fetchAddr (encode (.call nnn)))
  | some l => .next ((s.setStack l).setPc (zext16 nnn))

/-- `2nnn` CALL nnn, under this hardware's STACK_DEPTH (rule R203). -/
def execCall (nnn : Addr12) (s : State) : Result := callWithin stackDepth nnn s

/-- `Bnnn` JP V0, nnn: the register is always V0 (rule R204). -/
def execJpV0 (nnn : Addr12) (s : State) : Result := .next (s.setPc (offsetTarget nnn (s.getV Reg.v0)))

/-- Skips the next word when the condition holds, without decoding it (rule R210). -/
def State.skipIf (s : State) (c : Bool) : State := if c then s.skip else s

/-- `3xnn` SE Vx, nn (rule R211). -/
def execSeImm (x : Reg) (nn : Byte) (s : State) : Result := .next (s.skipIf (s.getV x == nn))

/-- `4xnn` SNE Vx, nn (rule R212). -/
def execSneImm (x : Reg) (nn : Byte) (s : State) : Result := .next (s.skipIf (s.getV x != nn))

/-- `5xy0` SE Vx, Vy (rule R213). -/
def execSeReg (x y : Reg) (s : State) : Result := .next (s.skipIf (s.getV x == s.getV y))

/-- `9xy0` SNE Vx, Vy (rule R214). -/
def execSneReg (x y : Reg) (s : State) : Result := .next (s.skipIf (s.getV x != s.getV y))

end Sys2Proof.Machine
end

