-- ==== Sys2Proof/Machine/Screen.lean ====
section
/-! DEFINITION. The display instructions: `00E0`, `Dxyn` (rules R180 to R188). -/

namespace Sys2Proof.Machine

/-- `00E0` CLS (rule R181). -/
def execCls (s : State) : Result := .next (s.setDisp clearDisplay)

/-- The drawing of a sprite of these bytes at (V[x] AND 63, V[y] AND 31): the cells, then VF as the collision flag, cleared
before drawing; Vx and Vy are read first (rules R182, R183, R186). -/
def State.drawSprite (s : State) (x y : Reg) (rows : List Byte) : State :=
  let dc := drawRows (startColumn (s.getV x)) (startRow (s.getV y)) rows (s.disp, false)
  (s.setDisp dc.1).setV Reg.vf (flagByte dc.2)

/-- `Dxyn` DRW Vx, Vy, n: all n bytes at I are read and checked first, clipped rows too (rules R182, R184).
UNVERIFIED: the reads of clipped rows are the spec's own decision D19 (log entry 26, safe). -/
def execDrw (x y : Reg) (n : Nibble) (s : State) : Result :=
  orOutOfBounds s (.drw x y n) (readBlock s.mem s.base n.toNat) (s.drawSprite x y)

end Sys2Proof.Machine
end

