-- ==== Sys2Proof/Machine/TimersKeys.lean ====
section
/-! DEFINITION. Timer moves and keypad instructions: `Ex9E`, `ExA1`, `Fx07`, `Fx0A`, `Fx15`, `Fx18` (rules R230 to R236). The
keypad snapshot is constant for the whole step (rule R230). -/

namespace Sys2Proof.Machine

/-- Looks Vx up in the keypad and skips when the condition on its flag holds; a value that names no key is fatal
(rules R230 to R232). UNVERIFIED: the fault is the spec's own decision D17 (log entry 22, safe). -/
def keySkip (i : Instr) (x : Reg) (cond : Bool → Bool) (s : State) : Result :=
  match keyIndex (s.getV x) with
  | none => raise (.keyIndexOutOfRange s.fetchAddr (encode i) (s.getV x))
  | some k => .next (s.skipIf (cond s.key[k]))

/-- `Ex9E` SKP Vx (rule R231). -/
def execSkp (x : Reg) (s : State) : Result := keySkip (.skp x) x (fun down => down) s

/-- `ExA1` SKNP Vx (rule R232). -/
def execSknp (x : Reg) (s : State) : Result := keySkip (.sknp x) x (fun down => !down) s

/-- `Fx07` LD Vx, DT (rule R233). -/
def execLdVxDt (x : Reg) (s : State) : Result := .next (s.setV x s.dt)

/-- The number of a key as a register holds it. -/
def keyByte (k : Key) : Byte := BitVec.ofNat 8 k.val

/-- `Fx0A` LD Vx, K: with no key down PC is rewound by 2, so that the same opcode is fetched again; else one of the keys that
are down is captured, a free choice when several are (rule R234; log entry 5). -/
def execLdVxK (x : Reg) (s : State) : Result :=
  match pressedKeys s.key with
  | [] => .next (s.setPc (s.pc - 2))
  | k :: ks => .next (s.drawn.setV x (keyByte (chooseKey k ks (Config.keyChoice s.draws))))

/-- `Fx15` LD DT, Vx (rule R235). -/
def execLdDtVx (x : Reg) (s : State) : Result := .next (s.setDt (s.getV x))

/-- `Fx18` LD ST, Vx (rule R236). -/
def execLdStVx (x : Reg) (s : State) : Result := .next (s.setSt (s.getV x))

end Sys2Proof.Machine
end

