-- ==== Sys2Proof/Machine/Step.lean ====
section
/-! DEFINITION. One step of the core: one turn of the two agents that the scheduler interleaves (rules R136, R285). -/

namespace Sys2Proof.Machine

/-- One instruction step: fetch, decode, execute, as one atomic sequence (rule R136). A word that decodes to nothing is fatal
after the fetch and before any execute effect (rules R138, R274). -/
def instructionStep (s : State) : Host.Outcome State Fault Refusal :=
  match s.fetch with
  | .error f => raise f
  | .ok (op, s') =>
    match decode op with
    | .error _ => raise (.unknownOpcode s.pc op)
    | .ok i => exec i s'

/-- One turn: none in the `Halted` run state (rules R54, R139), else a timer tick or an instruction step with the keypad
snapshot refreshed before it (rules R285, R286). -/
def step (s : State) : Host.Outcome State Fault Refusal :=
  match s.run with
  | .halted f => raise f
  | .running =>
    match s.takeTurn with
    | (.tick, s') => .next s'.tick
    | (.instruction k, s') => instructionStep (s'.refreshKeys k)

/-- The run state after a turn: a fatal condition moves it to `Halted(f)` with f its fault (rules R54, R272). Of the state
after a fatal condition only this may be read (rule R282). -/
def runAfter (s : State) : RunState :=
  match step s with
  | .next t => t.run
  | .fault f => .halted f
  | .refused _ => s.run

/-- s with this one instruction word stored where step fetches next, so that the very next step fetches and runs exactly it
(log entry 10). -/
def State.withFetchWord (s : State) (nbits w : Nat) : State := s.placeWord (tableWord nbits w)

end Sys2Proof.Machine
end

