-- ==== Sys2Proof/Machine/Run.lean ====
section
/-! DEFINITION. The end of a run as a model observes it: a fatal condition, a self-jump, or the bound of the claim (rule R316, the
spec's own decision D30; log entry 31). -/

namespace Sys2Proof.Machine

/-- The core is running and its next instruction is `1nnn` with nnn equal to its own address (rule R316). A fetch that succeeds has
PC below 4096, so that its low 12 bits are all of it. -/
def State.atSelfJump (s : State) : Bool :=
  match s.run, s.fetch with
  | .running, .ok (op, _) => decide (decode op = .ok (.jp (s.pc.setWidth 12)))
  | .running, .error _ => false
  | .halted _, _ => false

/-- Where the observation of a run ends (rule R316). It does not say that the host has stopped, nor that the timers have. -/
inductive RunEnd where
  /-- at a fatal condition; nothing is said of the state after it (rule R282) -/
  | fatal (f : Fault)
  /-- at a state whose next instruction is a jump to itself -/
  | selfJump (s : State)
  /-- after the number of steps that the claim names -/
  | bound (s : State)
  /-- at an instruction without a meaning, of which there is none -/
  | refused (r : Refusal)
  deriving DecidableEq, Repr

/-- The end that a state is at before any further step, if it is at one. -/
def State.runEnd? (s : State) : Option RunEnd :=
  match s.run with
  | .halted f => some (.fatal f)
  | .running => if s.atSelfJump then some (.selfJump s) else none

/-- The end of the run from s that takes at most n steps, instruction steps and timer ticks alike (rules R49, R316). -/
def runToEnd : (n : Nat) → State → RunEnd
  | 0, s => s.runEnd?.getD (.bound s)
  | n + 1, s =>
    match s.runEnd? with
    | some e => e
    | none =>
      match step s with
      | .next t => runToEnd n t
      | .fault f => .fatal f
      | .refused r => .refused r

end Sys2Proof.Machine
end

