-- ==== Sys2Proof/Safety.lean ====
section
/-! DEFINITION. The terms that claims are stated in: which parts of the state two states agree on, what an instruction may
change, the invariant of every run, and a sprite's pixels. -/

namespace Sys2Proof.Machine

/-! ### Parts of the state and frames -/

/-- The parts of the state (rule R55), and the host's input and the model's own two fields. -/
inductive Part where
  | mem | regs | index | pc | stack | dt | st | disp | run | key | script | draws
  deriving DecidableEq, Repr

/-- The two states agree on this part; memory through the read of every address, the registers through the read of every
register. -/
def SamePart (p : Part) (s t : State) : Prop :=
  match p with
  | .mem => ∀ a, t.mem.read a = s.mem.read a
  | .regs => ∀ r, t.getV r = s.getV r
  | .index => t.i = s.i
  | .pc => t.pc = s.pc
  | .stack => t.stack = s.stack
  | .dt => t.dt = s.dt
  | .st => t.st = s.st
  | .disp => t.disp = s.disp
  | .run => t.run = s.run
  | .key => t.key = s.key
  | .script => t.script = s.script
  | .draws => t.draws = s.draws

/-- From s to t nothing changed but the parts listed. -/
def OnlyChanges (parts : List Part) (s t : State) : Prop := ∀ p, p ∉ parts → SamePart p s t

/-- The instruction completes: exec answers a next state that differs from s in the listed parts at most and meets P. -/
def Completes (i : Instr) (s : State) (parts : List Part) (P : State → Prop) : Prop :=
  ∃ t, exec i s = .next t ∧ OnlyChanges parts s t ∧ P t

/-- The instruction's word is of the opcode map's row with this match and mask, and decodes to it (rule R110). -/
def EncodedAs (i : Instr) (pattern mask : Opcode) : Prop := encode i &&& mask = pattern ∧ decode (encode i) = .ok i

/-- The parts an instruction may change when it completes (rules R33, R37, R41, R43, R47, R48, R50, R71; `draws` is the
model's own, for the free values of `Cxnn` and `Fx0A`). -/
def changesOf : Instr → List Part
  | .cls => [.disp]
  | .ret => [.pc, .stack]
  | .jp _ => [.pc]
  | .call _ => [.pc, .stack]
  | .seImm _ _ => [.pc]
  | .sneImm _ _ => [.pc]
  | .seReg _ _ => [.pc]
  | .ldImm _ _ => [.regs]
  | .addImm _ _ => [.regs]
  | .ldReg _ _ => [.regs]
  | .orReg _ _ => [.regs]
  | .andReg _ _ => [.regs]
  | .xorReg _ _ => [.regs]
  | .addReg _ _ => [.regs]
  | .subReg _ _ => [.regs]
  | .shr _ _ => [.regs]
  | .subnReg _ _ => [.regs]
  | .shl _ _ => [.regs]
  | .sneReg _ _ => [.pc]
  | .ldI _ => [.index]
  | .jpV0 _ => [.pc]
  | .rnd _ _ => [.regs, .draws]
  | .drw _ _ _ => [.disp, .regs]
  | .skp _ => [.pc]
  | .sknp _ => [.pc]
  | .ldVxDt _ => [.regs]
  | .ldVxK _ => [.pc, .regs, .draws]
  | .ldDtVx _ => [.dt]
  | .ldStVx _ => [.st]
  | .addI _ => [.index, .regs]
  | .ldF _ => [.index]
  | .ldB _ => [.mem]
  | .ldMemVx _ => [.mem]
  | .ldVxMem _ => [.regs]

/-- The registers an instruction writes, the column "writes" of rule R33. -/
def writesReg (i : Instr) (r : Reg) : Bool :=
  match i with
  | .cls => false
  | .ret => false
  | .jp _ => false
  | .call _ => false
  | .seImm _ _ => false
  | .sneImm _ _ => false
  | .seReg _ _ => false
  | .ldImm x _ => r == x
  | .addImm x _ => r == x
  | .ldReg x _ => r == x
  | .orReg x _ => r == x
  | .andReg x _ => r == x
  | .xorReg x _ => r == x
  | .addReg x _ => r == x || r == Reg.vf
  | .subReg x _ => r == x || r == Reg.vf
  | .shr x _ => r == x || r == Reg.vf
  | .subnReg x _ => r == x || r == Reg.vf
  | .shl x _ => r == x || r == Reg.vf
  | .sneReg _ _ => false
  | .ldI _ => false
  | .jpV0 _ => false
  | .rnd x _ => r == x
  | .drw _ _ _ => r == Reg.vf
  | .skp _ => false
  | .sknp _ => false
  | .ldVxDt x => r == x
  | .ldVxK x => r == x
  | .ldDtVx _ => false
  | .ldStVx _ => false
  | .addI _ => r == Reg.vf
  | .ldF _ => false
  | .ldB _ => false
  | .ldMemVx _ => false
  | .ldVxMem x => decide (r ≤ x)

/-- Where PC stands after an instruction that completes, by rule R37's table, with A + 2 as PC holds it when exec starts. -/
def PcFollows (i : Instr) (s t : State) : Prop :=
  match i with
  | .jp nnn => t.pc.toNat = nnn.toNat
  | .call nnn => t.pc.toNat = nnn.toNat
  | .ret => s.stack.head? = some t.pc
  | .jpV0 nnn => t.pc.toNat = nnn.toNat + (s.getV 0).toNat
  | .seImm x nn => t.pc = if s.getV x = nn then s.pc + 2 else s.pc
  | .sneImm x nn => t.pc = if s.getV x ≠ nn then s.pc + 2 else s.pc
  | .seReg x y => t.pc = if s.getV x = s.getV y then s.pc + 2 else s.pc
  | .sneReg x y => t.pc = if s.getV x ≠ s.getV y then s.pc + 2 else s.pc
  | .skp x => ∃ k : Key, k.val = (s.getV x).toNat ∧ t.pc = if s.key[k] then s.pc + 2 else s.pc
  | .sknp x => ∃ k : Key, k.val = (s.getV x).toNat ∧ t.pc = if s.key[k] then s.pc else s.pc + 2
  | .ldVxK _ => t.pc = if ∃ k : Key, s.key[k] = true then s.pc else s.pc - 2
  | .cls => t.pc = s.pc
  | .ldImm _ _ => t.pc = s.pc
  | .addImm _ _ => t.pc = s.pc
  | .ldReg _ _ => t.pc = s.pc
  | .orReg _ _ => t.pc = s.pc
  | .andReg _ _ => t.pc = s.pc
  | .xorReg _ _ => t.pc = s.pc
  | .addReg _ _ => t.pc = s.pc
  | .subReg _ _ => t.pc = s.pc
  | .shr _ _ => t.pc = s.pc
  | .subnReg _ _ => t.pc = s.pc
  | .shl _ _ => t.pc = s.pc
  | .ldI _ => t.pc = s.pc
  | .rnd _ _ => t.pc = s.pc
  | .drw _ _ _ => t.pc = s.pc
  | .ldVxDt _ => t.pc = s.pc
  | .ldDtVx _ => t.pc = s.pc
  | .ldStVx _ => t.pc = s.pc
  | .addI _ => t.pc = s.pc
  | .ldF _ => t.pc = s.pc
  | .ldB _ => t.pc = s.pc
  | .ldMemVx _ => t.pc = s.pc
  | .ldVxMem _ => t.pc = s.pc

/-- The fatal conditions an instruction's execute phase may raise, the column "raised by" of rule R271. -/
def mayRaise (i : Instr) (f : Fault) : Bool :=
  match i, f with
  | .ret, .stackUnderflow _ _ => true
  | .call _, .stackOverflow _ _ => true
  | .drw _ _ _, .outOfBounds _ _ _ => true
  | .ldB _, .outOfBounds _ _ _ => true
  | .ldMemVx _, .outOfBounds _ _ _ => true
  | .ldVxMem _, .outOfBounds _ _ _ => true
  | .skp _, .keyIndexOutOfRange _ _ _ => true
  | .sknp _, .keyIndexOutOfRange _ _ _ => true
  | .addI _, .indexOverflow _ _ => true
  | _, _ => false

/-- The instructions that read the keypad (rule R51). -/
def readsKeypad : Instr → Bool
  | .cls => false
  | .ret => false
  | .jp _ => false
  | .call _ => false
  | .seImm _ _ => false
  | .sneImm _ _ => false
  | .seReg _ _ => false
  | .ldImm _ _ => false
  | .addImm _ _ => false
  | .ldReg _ _ => false
  | .orReg _ _ => false
  | .andReg _ _ => false
  | .xorReg _ _ => false
  | .addReg _ _ => false
  | .subReg _ _ => false
  | .shr _ _ => false
  | .subnReg _ _ => false
  | .shl _ _ => false
  | .sneReg _ _ => false
  | .ldI _ => false
  | .jpV0 _ => false
  | .rnd _ _ => false
  | .drw _ _ _ => false
  | .skp _ => true
  | .sknp _ => true
  | .ldVxDt _ => false
  | .ldVxK _ => true
  | .ldDtVx _ => false
  | .ldStVx _ => false
  | .addI _ => false
  | .ldF _ => false
  | .ldB _ => false
  | .ldMemVx _ => false
  | .ldVxMem _ => false

/-! ### The invariant of every run -/

/-- PC and every return address stay where rule R39 says: no PC computation wraps at 16 bits. -/
def State.PcBounded (s : State) : Prop := s.pc.toNat ≤ 0x10FE ∧ ∀ w ∈ s.stack, w.toNat ≤ 0x1000

/-- The invariant of every run: memory in its canonical form, PC and the stack within rule R39's bounds. -/
def State.Inv (s : State) : Prop := s.mem.wf = true ∧ s.PcBounded

/-! ### Sprites -/

/-- A set bit of the n-row sprite at address `base` falls on the cell (cx, cy) when the sprite starts at column x0 and row y0:
row r goes to display row y0 + r, and its column b, counted from the left, is bit 7 − b of the byte (rule R185). -/
def spriteCovers (m : Memory) (base n x0 y0 cx cy : Nat) : Bool :=
  decide (x0 ≤ cx ∧ cx < x0 + 8 ∧ y0 ≤ cy ∧ cy < y0 + n) && (m.read (base + (cy - y0))).getLsbD (7 - (cx - x0))

/-! ### Outcomes of two runs -/

/-- The same outcome with the next state changed by f. -/
def mapNext (f : State → State) : Result → Result
  | .next t => .next (f t)
  | .fault e => .fault e
  | .refused r => .refused r

end Sys2Proof.Machine
end

