-- ==== Sys2Proof/Certificates/Slice0/Obligations.lean ====
section
/-! DEFINITION. The statements for the provers. Each docstring names the rules of the spec it formalises. In a statement about
exec, `s.pc` is A + 2: the fetch has already advanced PC (rules R36, R137). -/

open Sys2Proof Sys2Proof.Machine

/-! ### Encoding -/

/-- A few words of rule R110's map, written out from the spec's encodings, decode to the instructions they stand for.
The low nibbles of the `8xy_` words are the spec's general knowledge (G2; log entry 16). -/
def Obligations.WordsOfTheMapDecode : Prop :=
  decode 0x6A3C = .ok (.ldImm 0xA 0x3C) ∧ decode 0x00E0 = .ok .cls ∧ decode 0x1ABC = .ok (.jp 0xABC) ∧
    decode 0x8256 = .ok (.shr 2 5) ∧ decode 0xB123 = .ok (.jpV0 0x123) ∧ decode 0xD125 = .ok (.drw 1 2 5) ∧
    decode 0xE39E = .ok (.skp 3) ∧ decode 0xF155 = .ok (.ldMemVx 1) ∧ decode 0xF265 = .ok (.ldVxMem 2)

/-- The decoder reads every instruction back from its word and from its two bytes, whatever follows them, with every operand
at every value (rules R102, R106, R110, R112). -/
def Obligations.DecodeInvertsEncode : Prop :=
  ∀ (i : Instr) (rest : List Byte),
    decode (encode i) = .ok i ∧ decodeBytes (encodeBytes i ++ rest) = .ok (i, rest)

/-- Every word that decodes is the word the encoder gives its instruction: no bit of a word is dropped, and no two words
decode to one instruction (rules R102, R106, R110). -/
def Obligations.EncodeInvertsDecode : Prop := ∀ (w : Opcode) (i : Instr), decode w = .ok i → encode i = w

/-- A word is the instruction of a row of the opcode map iff `w AND mask = match` (rule R110).
The low nibbles of the `8xy_` rows are the spec's general knowledge (G2; log entry 16), the strict match of `5xy0` and `9xy0`
its decision D9 (log entry 17). -/
def Obligations.DecoderFollowsOpcodeMap : Prop :=
  ∀ (w : Opcode) (r : OpcodeRow), r ∈ opcodeMap →
    (w &&& r.mask = r.pattern ↔ ∃ i, decode w = .ok i ∧ i.mnemonic = r.mnemonic)

/-- The decoder's patterns are pairwise disjoint: no word is of two rows of the opcode map (rules R106, R110). -/
def Obligations.OpcodeRowsAreDisjoint : Prop :=
  ∀ (w : Opcode) (r r' : OpcodeRow), r ∈ opcodeMap → r' ∈ opcodeMap →
    w &&& r.mask = r.pattern → w &&& r'.mask = r'.pattern → r = r'

/-- The undefined words are exactly those of rule R107's list, and the decoder rejects each by name.
The strict match is the spec's decision D9 (log entry 17). -/
def Obligations.UndefinedWordsAreExactly : Prop :=
  ∀ w : Opcode,
    decode w = .error (.unknown w) ↔
      (w.toNat / 0x1000 = 0 ∧ w ≠ 0x00E0 ∧ w ≠ 0x00EE) ∨
      ((w.toNat / 0x1000 = 5 ∨ w.toNat / 0x1000 = 9) ∧ w.toNat % 16 ≠ 0) ∨
      (w.toNat / 0x1000 = 8 ∧ w.toNat % 16 ∈ [8, 9, 0xA, 0xB, 0xC, 0xD, 0xF]) ∨
      (w.toNat / 0x1000 = 0xE ∧ w.toNat % 256 ∉ [0x9E, 0xA1]) ∨
      (w.toNat / 0x1000 = 0xF ∧ w.toNat % 256 ∉ [0x07, 0x0A, 0x15, 0x18, 0x1E, 0x29, 0x33, 0x55, 0x65])

/-! ### The step -/

/-- The fetch at a PC with PC and PC + 1 in memory answers the big-endian word of the two bytes there, the byte at PC in bits
15..8, and a state that differs in PC alone, which is advanced by exactly 2 (rules R74, R131, R133). -/
def Obligations.FetchReadsTheBigEndianWord : Prop :=
  ∀ s : State, s.pc.toNat + 1 < 4096 →
    ∃ op u, s.fetch = .ok (op, u) ∧ op.extractLsb' 8 8 = s.mem.read s.pc.toNat ∧
      op.extractLsb' 0 8 = s.mem.read (s.pc.toNat + 1) ∧ OnlyChanges [.pc] s u ∧ u.pc.toNat = s.pc.toNat + 2

/-- A step of the running core whose turn is an instruction turn with the keypad k, at a PC the fetch can read, is exec of the
instruction that the two bytes at PC decode to, at the state with the turn taken, the keypad k and PC advanced by 2; a word
that decodes to nothing is `UnknownOpcode` with the word and the fetch address, whatever exec would do (rules R130, R131, R136,
R138).
The two turns are the model's own (log entries 2 and 3). -/
def Obligations.StepRunsTheDecodedInstruction : Prop :=
  ∀ (s s' : State) (k : Keypad), s.run = .running → s.takeTurn = (.instruction k, s') → s.pc.toNat + 1 < 4096 →
    (∀ i, decode s.opcodeAtPc = .ok i → step s = exec i ((s'.refreshKeys k).setPc (s.pc + 2))) ∧
    (∀ e, decode s.opcodeAtPc = .error e → step s = .fault (.unknownOpcode s.pc s.opcodeAtPc))

/-- An instruction turn whose PC is past the last address a fetch succeeds at raises `OutOfBounds` with the first byte address
outside memory (PC itself, or 4096 when PC is 4095); the record carries pc = A and no opcode, and the core halts (rule R132).
The address in the record is the spec's decision D34 (log entry 24). -/
def Obligations.FetchOutOfBoundsIsFatal : Prop :=
  ∀ (s s' : State) (k : Keypad), s.run = .running → s.takeTurn = (.instruction k, s') → 4095 ≤ s.pc.toNat →
    ∃ f, step s = .fault f ∧ runAfter s = .halted f ∧ f.code = 3 ∧ f.pc? = some s.pc ∧ f.opcode? = none ∧
      f.addr? = some (if s.pc.toNat = 4095 then 4096 else s.pc.toNat)

/-- No step is taken in the `Halted` run state, whatever turn the script holds: the fault stands and the run state stays
(rules R54, R139). -/
def Obligations.HaltedTakesNoStep : Prop :=
  ∀ (s : State) (f : Fault), s.run = .halted f → step s = .fault f ∧ runAfter s = .halted f

/-- A tick turn of the running core decrements each timer toward zero, never below, and changes nothing else but the model's
own script and draw counter (rule R49).
One tick acting on both timers is the spec's decision D21 (log entry 27). -/
def Obligations.TickDecrementsBothTimers : Prop :=
  ∀ s s' : State, s.run = .running → s.takeTurn = (.tick, s') →
    ∃ t, step s = .next t ∧ OnlyChanges [.dt, .st, .script, .draws] s t ∧
      t.dt.toNat = s.dt.toNat - 1 ∧ t.st.toNat = s.st.toNat - 1

/-- Any number of ticks between two instruction steps counts each timer down by that number, never below zero, and changes
nothing else (rules R49, R285, R314).
One tick acting on both timers is the spec's decision D21 (log entry 27). -/
def Obligations.TicksCountDownToZero : Prop :=
  ∀ (n : Nat) (s : State) (rest : List Turn), s.run = .running → s.script = List.replicate n .tick ++ rest →
    ∃ t, Sys2Proof.core.run n s = .next t ∧ OnlyChanges [.dt, .st, .script] s t ∧ t.script = rest ∧
      t.dt.toNat = s.dt.toNat - n ∧ t.st.toNat = s.st.toNat - n

/-- Nothing is refused: every step goes on or is fatal (rules R109, R270). -/
def Obligations.NothingIsRefused : Prop := ∀ (s : State) (r : Refusal), step s ≠ .refused r

/-- A fatal step of the running core names its fetch address, and its opcode whenever the fetch completed (rule R273): the
opcode recorded is the one at PC.
The record's form is the spec's decision D23 (log entry 28). -/
def Obligations.FatalStepNamesAddressAndOpcode : Prop :=
  ∀ (s : State) (f : Fault), s.run = .running → step s = .fault f →
    f.pc? = some s.pc ∧
      (s.pc.toNat + 1 < 4096 → f.opcode? = some s.opcodeAtPc) ∧ (4096 ≤ s.pc.toNat + 1 → f.opcode? = none)

/-! ### Start state -/

/-- Every state element at its start value with any FONT and a ROM of at most 3584 bytes: FONT at 0x000, zeros to 0x1FF, the ROM
from 0x200, zeros above it; all V registers, I, DT and ST 0; PC 0x200; the stack empty; the display and the keypad all false;
running. The state after reset is the one with the default FONT and an empty ROM (rules R56, R78, R300, R302).
The zeros of the registers and of 0x050–0x1FF are the spec's decisions D3 and D4 (log entries 12 and 13), FONT a parameter by its
decision D5, PC its derivation (log entry 14). -/
def Obligations.LoadedStartState : Prop :=
  (∀ (font : FontTable) (rom : List Byte), rom.length ≤ 3584 →
    let s := State.load font rom
    (∀ a, (h : a < 0x50) → s.mem.read a = font[a]) ∧
    (∀ a, 0x50 ≤ a → a < 0x200 → s.mem.read a = 0) ∧
    (∀ k, (h : k < rom.length) → s.mem.read (0x200 + k) = rom[k]) ∧
    (∀ a, 0x200 + rom.length ≤ a → a < 4096 → s.mem.read a = 0) ∧
    (∀ r, s.getV r = 0) ∧ s.i = 0 ∧ s.pc = 0x200 ∧ s.stack = [] ∧ s.dt = 0 ∧ s.st = 0 ∧
    (∀ x y, readCell s.disp x y = false) ∧ s.run = .running ∧ ∀ k : Key, s.key[k] = false) ∧
  State.load font [] = State.reset

/-- A ROM of more than 3584 bytes is an out-of-bounds fatal condition with addr = 4096 and no pc, whatever FONT is, and the core
never takes a step (rule R295). Of the state after the failed load the run state alone is read. -/
def Obligations.OversizeRomNeverSteps : Prop :=
  ∀ (font : FontTable) (rom : List Byte), 3584 < rom.length →
    ∃ f : Fault, (State.load font rom).run = .halted f ∧ f.code = 3 ∧ f.addr? = some 4096 ∧ f.pc? = none ∧
      f.opcode? = none ∧ ∀ script, step { State.load font rom with script := script } = .fault f

/-- A ROM of length 0 leaves 0x00 at 0x200, so the first instruction step raises `UnknownOpcode(0x0000)`, whatever FONT is
(rule R303).
An empty ROM being legal is the spec's decision D32 (log entry 13). -/
def Obligations.EmptyRomIsUnknownOpcode : Prop :=
  ∀ (font : FontTable) (k : Keypad) (rest : List Turn),
    step { State.load font [] with script := .instruction k :: rest } = .fault (.unknownOpcode 0x200 0x0000)

/-! ### Memory -/

/-- Every memory read returns the value of the most recent write to that address (rule R80): a byte written is read back, and
every other address reads as before. -/
def Obligations.ReadSeesTheLastWrite : Prop :=
  ∀ (m : Memory) (a c : Nat) (b : Byte), (m.write a b).read c = if c = a then b else m.read c

/-- A byte stored by `Fx55` is seen by the very next fetch at its address: the byte at the lower address is the opcode's high
byte (rules R74, R75, R83).
That I + k does not wrap is the spec's decision D8 (log entry 24). -/
def Obligations.FetchSeesStoredBytes : Prop :=
  ∀ (x : Reg) (s : State), s.i.toNat + x.val + 1 ≤ 4096 →
    ∃ t, exec (.ldMemVx x) s = .next t ∧
      ∀ j j' : Reg, j'.val = j.val + 1 → j' ≤ x → t.pc.toNat = s.i.toNat + j.val →
        ∃ u, t.fetch = .ok (joinBytes (s.getV j) (s.getV j'), u) ∧ OnlyChanges [.pc] t u ∧ u.pc.toNat = t.pc.toNat + 2

/-! ### Register loads and the ALU family -/

/-- `6xnn`, the words with match 0x6000 and mask 0xF000: Vx becomes nn, and no other register, VF included, and nothing else
changes; with x = 0xF it loads VF (rule R152). -/
def Obligations.LoadImmediateWritesVx : Prop :=
  ∀ (x : Reg) (nn : Byte) (s : State),
    EncodedAs (.ldImm x nn) 0x6000 0xF000 ∧
      Completes (.ldImm x nn) s [.regs] fun t => ∀ r, t.getV r = if r = x then nn else s.getV r

/-- `8xy0`, `8xy1`, `8xy2`, `8xy3`: Vx takes Vy, or the OR, AND, XOR of Vx and Vy; no other register, VF included, and nothing
else changes (rules R154 to R157).
That the logic operations leave VF alone is the spec's decision D12 (log entry 20). -/
def Obligations.MovesAndLogicWriteVxOnly : Prop :=
  ∀ (x y : Reg) (s : State),
    Completes (.ldReg x y) s [.regs] (fun t => ∀ r, t.getV r = if r = x then s.getV y else s.getV r) ∧
    Completes (.orReg x y) s [.regs] (fun t => ∀ r, t.getV r = if r = x then s.getV x ||| s.getV y else s.getV r) ∧
    Completes (.andReg x y) s [.regs] (fun t => ∀ r, t.getV r = if r = x then s.getV x &&& s.getV y else s.getV r) ∧
    Completes (.xorReg x y) s [.regs] (fun t => ∀ r, t.getV r = if r = x then s.getV x ^^^ s.getV y else s.getV r)

/-- `7xnn`: Vx becomes (Vx + nn) mod 256 and no other register changes; VF is not written as a carry (rule R153).
That VF is left alone is the spec's decision D13 (log entry 20). -/
def Obligations.AddImmediateDiscardsCarry : Prop :=
  ∀ (x : Reg) (nn : Byte) (s : State),
    Completes (.addImm x nn) s [.regs] fun t =>
      ∀ r, (t.getV r).toNat = if r = x then ((s.getV x).toNat + nn.toNat) % 256 else (s.getV r).toNat

/-- `8xy4`: VF is 1 iff a + b > 255, written last; Vx, if it is not VF, becomes (a + b) mod 256 (rule R158).
That VF is written last is the spec's decision D11 (log entry 19). -/
def Obligations.AddRegistersSetsCarry : Prop :=
  ∀ (x y : Reg) (s : State),
    Completes (.addReg x y) s [.regs] fun t =>
      ∀ r, (t.getV r).toNat =
        if r = Reg.vf then (if (s.getV x).toNat + (s.getV y).toNat > 255 then 1 else 0)
        else if r = x then ((s.getV x).toNat + (s.getV y).toNat) % 256
        else (s.getV r).toNat

/-- `8xy5` and `8xy7`: VF is 1 iff the minuend is ≥ the subtrahend, equality included, written last; Vx, if it is not VF,
becomes the difference modulo 256 (rules R159, R161, R164).
That VF is written last is the spec's decision D11 (log entry 19). -/
def Obligations.SubtractionsSetNoBorrow : Prop :=
  ∀ (x y : Reg) (s : State),
    Completes (.subReg x y) s [.regs] (fun t =>
      ∀ r, (t.getV r).toNat =
        if r = Reg.vf then (if (s.getV x).toNat ≥ (s.getV y).toNat then 1 else 0)
        else if r = x then ((s.getV x).toNat + 256 - (s.getV y).toNat) % 256
        else (s.getV r).toNat) ∧
    Completes (.subnReg x y) s [.regs] (fun t =>
      ∀ r, (t.getV r).toNat =
        if r = Reg.vf then (if (s.getV y).toNat ≥ (s.getV x).toNat then 1 else 0)
        else if r = x then ((s.getV y).toNat + 256 - (s.getV x).toNat) % 256
        else (s.getV r).toNat)

/-- `8xy6` and `8xyE` shift Vx in place by one bit, whatever y is: VF ends as the bit shifted out, and Vx, if it is not VF, as
the shifted value (rules R160, R162, R165).
That VF is written last is the spec's decision D11 (log entry 19). -/
def Obligations.ShiftsIgnoreVy : Prop :=
  ∀ (x y : Reg) (s : State),
    Completes (.shr x y) s [.regs] (fun t =>
      ∀ r, (t.getV r).toNat =
        if r = Reg.vf then (s.getV x).toNat % 2 else if r = x then (s.getV x).toNat / 2 else (s.getV r).toNat) ∧
    Completes (.shl x y) s [.regs] (fun t =>
      ∀ r, (t.getV r).toNat =
        if r = Reg.vf then (s.getV x).toNat / 128 else if r = x then (s.getV x).toNat * 2 % 256 else (s.getV r).toNat)

/-- `Cxnn`: Vx becomes a free byte AND nn, and no other register changes; so nn = 0x00 always gives 0, whatever the byte
(rule R170).
The byte is a free value (log entry 4), `draws` the model's own counter. -/
def Obligations.RandomByteIsMasked : Prop :=
  ∀ (x : Reg) (nn : Byte) (s : State),
    Completes (.rnd x nn) s [.regs, .draws] fun t =>
      (∀ r, t.getV r = if r = x then Config.randomByte s.draws &&& nn else s.getV r) ∧
        t.draws = s.draws + 1 ∧ (nn = 0 → t.getV x = 0)

/-! ### Display -/

/-- `00E0`, match 0x00E0 and mask 0xFFFF: every cell is false afterwards and nothing else, VF included, changes; clearing a
clear display changes nothing at all (rule R181). -/
def Obligations.ClearTurnsEveryCellOff : Prop :=
  ∀ s : State,
    EncodedAs .cls 0x00E0 0xFFFF ∧
      Completes .cls s [.disp] fun t =>
        (∀ x y, readCell t.disp x y = false) ∧ ((∀ x y, readCell s.disp x y = false) → t = s)

/-- `Dxyn`: every cell that a set sprite bit falls on flips and no other; the start coordinates wrap, the body is clipped; VF is
1 iff a lit cell was turned off, else 0; no other register and nothing else changes. The n bytes at I lie in memory, or n is
0 (rules R182, R183, R185, R186).
The bit order is the spec's general knowledge (G5; log entry 18); n = 0, the coordinates taken from VF and the reads of clipped
rows are its decision D19 (log entry 26). -/
def Obligations.DrawFlipsTheSpriteCells : Prop :=
  ∀ (x y : Reg) (n : Nibble) (s : State), n.toNat = 0 ∨ s.i.toNat + n.toNat ≤ 4096 →
    let covers (cx : Fin 64) (cy : Fin 32) : Bool :=
      spriteCovers s.mem s.i.toNat n.toNat ((s.getV x).toNat % 64) ((s.getV y).toNat % 32) cx cy
    Completes (.drw x y n) s [.disp, .regs] fun t =>
      (∀ cx cy, readCell t.disp cx cy = (readCell s.disp cx cy ^^ covers cx cy)) ∧
      (∀ r, r ≠ Reg.vf → t.getV r = s.getV r) ∧
      (t.getV Reg.vf = if ∃ cx cy, covers cx cy = true ∧ readCell s.disp cx cy = true then 1 else 0)

/-- `Dxyn` with n > 0 whose bytes do not all lie in memory raises `OutOfBounds` at the first address outside, even for rows that
would be clipped (rule R184).
Reading clipped rows is the spec's decision D19 (log entry 26), addresses without a wrap its decision D8 (log entry 24). -/
def Obligations.DrawReadsEveryRowInBounds : Prop :=
  ∀ (x y : Reg) (n : Nibble) (s : State), 0 < n.toNat → 4096 < s.i.toNat + n.toNat →
    exec (.drw x y n) s =
      .fault (.outOfBounds (s.pc - 2) (encode (.drw x y n)) (if s.i.toNat ≥ 4096 then s.i.toNat else 4096))

/-- A `Dxyn` executed twice with the same start coordinates and sprite bytes restores the display; the second sets VF = 1 iff a
cell under a set, unclipped sprite bit was off before the first; on a display that is clear under the sprite the first leaves
VF = 0 (rule R188).
The bit order is the spec's general knowledge (G5; log entry 18). -/
def Obligations.DrawTwiceRestoresTheDisplay : Prop :=
  ∀ (x y : Reg) (n : Nibble) (s t u : State), exec (.drw x y n) s = .next t →
    u.disp = t.disp → u.i = s.i → (∀ r, r < n.toNat → u.mem.read (s.i.toNat + r) = s.mem.read (s.i.toNat + r)) →
    (u.getV x).toNat % 64 = (s.getV x).toNat % 64 → (u.getV y).toNat % 32 = (s.getV y).toNat % 32 →
    let covers (cx : Fin 64) (cy : Fin 32) : Bool :=
      spriteCovers s.mem s.i.toNat n.toNat ((s.getV x).toNat % 64) ((s.getV y).toNat % 32) cx cy
    ∃ w, exec (.drw x y n) u = .next w ∧ w.disp = s.disp ∧
      (w.getV Reg.vf = 1 ↔ ∃ cx cy, covers cx cy = true ∧ readCell s.disp cx cy = false) ∧
      ((∀ cx cy, covers cx cy = true → readCell s.disp cx cy = false) → t.getV Reg.vf = 0)

/-! ### Control flow -/

/-- `1nnn` (match 0x1000, mask 0xF000): PC becomes nnn; `Bnnn` (match 0xB000, mask 0xF000): PC becomes nnn + V0, whatever the
high nibble of nnn, with no wrap; nothing else changes (rules R202, R204).
That no target is a fault at the jump, and that one at 0xFFF or above is a fault at the next fetch, is the spec's decision D7
(marked in rules R39 and R200; log entry 23); the second is stated here for both jumps. -/
def Obligations.JumpsGoToTheirTargets : Prop :=
  ∀ (nnn : Addr12) (s : State),
    EncodedAs (.jp nnn) 0x1000 0xF000 ∧ EncodedAs (.jpV0 nnn) 0xB000 0xF000 ∧
    Completes (.jp nnn) s [.pc] (fun t =>
      t.pc.toNat = nnn.toNat ∧
        (0xFFF ≤ t.pc.toNat → ∃ f, t.fetch = .error f ∧ f.code = 3 ∧ f.pc? = some t.pc)) ∧
    Completes (.jpV0 nnn) s [.pc] (fun t =>
      t.pc.toNat = nnn.toNat + (s.getV 0).toNat ∧
        (0xFFF ≤ t.pc.toNat → ∃ f, t.fetch = .error f ∧ f.code = 3 ∧ f.pc? = some t.pc))

/-- `2nnn`: the PC already advanced past the call is pushed, then PC becomes nnn; on this hardware it completes at every stack
depth (rules R43, R203).
The unbounded stack is the spec's decision D22 (log entry 11). -/
def Obligations.CallPushesTheReturnAddress : Prop :=
  ∀ (nnn : Addr12) (s : State),
    Completes (.call nnn) s [.pc, .stack] fun t => t.stack = s.pc :: s.stack ∧ t.pc.toNat = nnn.toNat

/-- `00EE`: with an entry on the stack PC becomes the top entry, which is removed, and nothing else changes; with an empty stack
it is fatal, `StackUnderflow` with pc = A, which is PC − 2 when exec starts (rules R45, R275). -/
def Obligations.ReturnPopsThePc : Prop :=
  ∀ s : State,
    (∀ w rest, s.stack = w :: rest → Completes .ret s [.pc, .stack] fun t => t.pc = w ∧ t.stack = rest) ∧
    (s.stack = [] → exec .ret s = .fault (.stackUnderflow (s.pc - 2) 0x00EE))

/-- A call and the return that matches it, whatever runs between them, resume at the instruction after the call with the stack
as it was (rules R201, R203). -/
def Obligations.ReturnUndoesCall : Prop :=
  ∀ (nnn : Addr12) (s t u : State), exec (.call nnn) s = .next t → u.stack = t.stack →
    ∃ w, exec .ret u = .next w ∧ w.pc = s.pc ∧ w.stack = s.stack

/-- Under a depth bound of k entries a call on a full stack is `StackOverflow` with pc = A, and on a shorter one it pushes the
return address; without a bound it never faults (rules R44, R278).
The bound is the parameter STACK_DEPTH of the spec's decision D22 (log entry 11). -/
def Obligations.CallRespectsTheStackBound : Prop :=
  ∀ (k : Nat) (nnn : Addr12) (s : State),
    (k ≤ s.stack.length → callWithin (some k) nnn s = .fault (.stackOverflow (s.pc - 2) (encode (.call nnn)))) ∧
    (s.stack.length < k → ∃ t, callWithin (some k) nnn s = .next t ∧ t.stack = s.pc :: s.stack) ∧
    ∃ t, callWithin none nnn s = .next t ∧ t.stack = s.pc :: s.stack

/-- `3xnn`, `4xnn`, `5xy0`, `9xy0`: PC moves on by 2 exactly when the condition holds, and nothing else changes (rules R210 to
R214). The words of the first two are those with match 0x3000 and 0x4000 and mask 0xF000. -/
def Obligations.SkipsOnTheirConditions : Prop :=
  ∀ (x y : Reg) (nn : Byte) (s : State),
    EncodedAs (.seImm x nn) 0x3000 0xF000 ∧ EncodedAs (.sneImm x nn) 0x4000 0xF000 ∧
    Completes (.seImm x nn) s [.pc] (fun t => t.pc = if s.getV x = nn then s.pc + 2 else s.pc) ∧
    Completes (.sneImm x nn) s [.pc] (fun t => t.pc = if s.getV x = nn then s.pc else s.pc + 2) ∧
    Completes (.seReg x y) s [.pc] (fun t => t.pc = if s.getV x = s.getV y then s.pc + 2 else s.pc) ∧
    Completes (.sneReg x y) s [.pc] (fun t => t.pc = if s.getV x = s.getV y then s.pc else s.pc + 2)

/-! ### Timers and keys -/

/-- `Ex9E` and `ExA1` with Vx naming key k: PC moves on by 2 exactly when the key is down, or is not; nothing else changes
(rules R231, R232).
That a value above 15 names no key is the spec's decision D17 (log entry 22). -/
def Obligations.KeySkipsReadTheKeypad : Prop :=
  ∀ (x : Reg) (k : Key) (s : State), (s.getV x).toNat = k.val →
    Completes (.skp x) s [.pc] (fun t => t.pc = if s.key[k] = true then s.pc + 2 else s.pc) ∧
    Completes (.sknp x) s [.pc] (fun t => t.pc = if s.key[k] = true then s.pc else s.pc + 2)

/-- `Ex9E` and `ExA1` with Vx > 15 are fatal: `KeyIndexOutOfRange` with the value and pc = A (rules R230, R279).
This is the spec's decision D17 (log entry 22). -/
def Obligations.KeyIndexAboveFifteenIsFatal : Prop :=
  ∀ (x : Reg) (s : State), 15 < (s.getV x).toNat →
    exec (.skp x) s = .fault (.keyIndexOutOfRange (s.pc - 2) (encode (.skp x)) (s.getV x)) ∧
    exec (.sknp x) s = .fault (.keyIndexOutOfRange (s.pc - 2) (encode (.sknp x)) (s.getV x))

/-- `Fx07`, `Fx15`, `Fx18` (match 0xF007, 0xF015, 0xF018, mask 0xF0FF) copy between Vx and a timer, without decrementing, and
change nothing else (rules R233, R235, R236). -/
def Obligations.TimerMovesCopy : Prop :=
  ∀ (x : Reg) (s : State),
    EncodedAs (.ldVxDt x) 0xF007 0xF0FF ∧ EncodedAs (.ldDtVx x) 0xF015 0xF0FF ∧ EncodedAs (.ldStVx x) 0xF018 0xF0FF ∧
    Completes (.ldVxDt x) s [.regs] (fun t => ∀ r, t.getV r = if r = x then s.dt else s.getV r) ∧
    Completes (.ldDtVx x) s [.dt] (fun t => t.dt = s.getV x) ∧
    Completes (.ldStVx x) s [.st] (fun t => t.st = s.getV x)

/-- `Fx0A`: with no key down PC is rewound by 2 and nothing else changes; with some key down it captures into Vx the code of a
key that is down, and PC goes on (rule R234).
Which key, and that a key already down counts, is the spec's decision D18; the choice is a free value (log entry 5). -/
def Obligations.KeyWaitCapturesAPressedKey : Prop :=
  ∀ (x : Reg) (s : State),
    ((∀ k : Key, s.key[k] = false) → Completes (.ldVxK x) s [.pc] fun t => t.pc = s.pc - 2) ∧
    ((∃ k : Key, s.key[k] = true) → Completes (.ldVxK x) s [.regs, .draws] fun t =>
      ∃ k : Key, s.key[k] = true ∧ ∀ r, (t.getV r).toNat = if r = x then k.val else (s.getV r).toNat)

/-- With several keys down any one of them may be captured: each pressed key is the captured one for some choice, and no choice
captures another key (rule R234).
This is the spec's decision D18 (log entry 5). -/
def Obligations.AnyPressedKeyMayBeCaptured : Prop :=
  ∀ (keys : Keypad) (first : Key) (rest : List Key), pressedKeys keys = first :: rest →
    ∀ k : Key, keys[k] = true ↔ ∃ c, chooseKey first rest c = k

/-- A step of the running core on an `Fx0A` with no key down leaves PC where it was, so that the next instruction step fetches
it again; only the keypad and the model's own script and draw counter differ (rules R137, R234, R313). -/
def Obligations.KeyWaitLeavesPcUnchanged : Prop :=
  ∀ (x : Reg) (s s' : State) (k : Keypad), s.run = .running → s.takeTurn = (.instruction k, s') →
    s.pc.toNat + 1 < 4096 → s.opcodeAtPc = encode (.ldVxK x) → (∀ j : Key, k[j] = false) →
    ∃ t, step s = .next t ∧ OnlyChanges [.key, .script, .draws] s t

/-! ### Index register and memory blocks -/

/-- `Annn` (match 0xA000, mask 0xF000): I becomes nnn, so at most 0xFFF, and nothing else changes (rule R251). -/
def Obligations.LoadIndexImmediate : Prop :=
  ∀ (nnn : Addr12) (s : State),
    EncodedAs (.ldI nnn) 0xA000 0xF000 ∧
      Completes (.ldI nnn) s [.index] fun t => t.i.toNat = nnn.toNat ∧ t.i.toNat ≤ 0xFFF

/-- `Fx29`: I becomes 5 × Vx, for every Vx, since this hardware's FX29_MASK is false, and nothing else changes; with FX29_MASK
true the glyph address is 5 × (Vx AND 0xF) (rule R253).
FX29_MASK and its value are the spec's decision D16 (log entry 11). -/
def Obligations.GlyphAddressIsFiveTimesVx : Prop :=
  ∀ (x : Reg) (s : State),
    Completes (.ldF x) s [.index] (fun t => t.i.toNat = 5 * (s.getV x).toNat) ∧
    (glyphAddress true (s.getV x)).toNat = 5 * ((s.getV x).toNat % 16)

/-- `Fx1E` with I + Vx ≤ 0xFFFF: I becomes the sum and VF is 1 iff the sum is above 0x0FFF, else 0; nothing else changes; a sum
above 0xFFFF is `IndexOverflow` with pc = A (rules R252, R280).
The flag's meaning is the spec's general knowledge (G6), the fault its decision D14 (log entry 21). -/
def Obligations.AddIndexFlagsLeavingTwelveBits : Prop :=
  ∀ (x : Reg) (s : State),
    (s.i.toNat + (s.getV x).toNat ≤ 0xFFFF →
      Completes (.addI x) s [.index, .regs] fun t =>
        t.i.toNat = s.i.toNat + (s.getV x).toNat ∧
        ∀ r, t.getV r =
          if r = Reg.vf then (if s.i.toNat + (s.getV x).toNat > 0x0FFF then 1 else 0) else s.getV r) ∧
    (0xFFFF < s.i.toNat + (s.getV x).toNat →
      exec (.addI x) s = .fault (.indexOverflow (s.pc - 2) (encode (.addI x))))

/-- `Fx33` with I + 2 in memory: the hundreds, tens and ones of Vx at I, I + 1, I + 2; every other byte and everything else is
unchanged, I included (rules R258, R261).
That I is unchanged is the spec's decision D15 (log entry 25). -/
def Obligations.BcdStoresThreeDigits : Prop :=
  ∀ (x : Reg) (s : State), s.i.toNat + 3 ≤ 4096 →
    Completes (.ldB x) s [.mem] fun t =>
      (t.mem.read s.i.toNat).toNat = (s.getV x).toNat / 100 ∧
      (t.mem.read (s.i.toNat + 1)).toNat = (s.getV x).toNat / 10 % 10 ∧
      (t.mem.read (s.i.toNat + 2)).toNat = (s.getV x).toNat % 10 ∧
      ∀ a, a < s.i.toNat ∨ s.i.toNat + 3 ≤ a → t.mem.read a = s.mem.read a

/-- `Fx55` with I + x in memory: Vk at I + k for k = 0..x; every other byte and everything else is unchanged, I included
(rules R260, R261).
That I is unchanged is the spec's decision D15 (log entry 25). -/
def Obligations.StoreWritesRegistersInOrder : Prop :=
  ∀ (x : Reg) (s : State), s.i.toNat + x.val + 1 ≤ 4096 →
    Completes (.ldMemVx x) s [.mem] fun t =>
      (∀ k : Reg, k ≤ x → t.mem.read (s.i.toNat + k.val) = s.getV k) ∧
      ∀ a, a < s.i.toNat ∨ s.i.toNat + x.val + 1 ≤ a → t.mem.read a = s.mem.read a

/-- `Fx65` with I + x in memory: Vk from I + k for k = 0..x; every other register and everything else is unchanged, I included
(rules R261, R262).
That I is unchanged is the spec's decision D15 (log entry 25). -/
def Obligations.LoadReadsRegistersInOrder : Prop :=
  ∀ (x : Reg) (s : State), s.i.toNat + x.val + 1 ≤ 4096 →
    Completes (.ldVxMem x) s [.regs] fun t =>
      ∀ r, t.getV r = if r ≤ x then s.mem.read (s.i.toNat + r.val) else s.getV r

/-- `Fx33`, `Fx55`, `Fx65` whose block leaves memory raise `OutOfBounds` at the first address I + k that is outside (rules R72,
R250).
That I + k does not wrap is the spec's decision D8 (log entry 24). -/
def Obligations.BlocksOutOfBoundsAreFatal : Prop :=
  ∀ (x : Reg) (s : State),
    let first := if s.i.toNat ≥ 4096 then s.i.toNat else 4096
    (4096 < s.i.toNat + 3 → exec (.ldB x) s = .fault (.outOfBounds (s.pc - 2) (encode (.ldB x)) first)) ∧
    (4096 < s.i.toNat + x.val + 1 →
      exec (.ldMemVx x) s = .fault (.outOfBounds (s.pc - 2) (encode (.ldMemVx x)) first) ∧
      exec (.ldVxMem x) s = .fault (.outOfBounds (s.pc - 2) (encode (.ldVxMem x)) first))

/-- `Fx55` stores Vk at I + k and `Fx65` loads it from there, so that `Fx55` followed by `Fx65` with the same x, with I
unchanged and no write to I..I + x in between, leaves V0..Vx as they were, whatever they held in between; x = 0xF is all
sixteen (rule R263). -/
def Obligations.StoreThenLoadRestoresRegisters : Prop :=
  ∀ (x : Reg) (s t u : State), exec (.ldMemVx x) s = .next t → u.i = t.i →
    (∀ k : Reg, k ≤ x → t.mem.read (s.i.toNat + k.val) = s.getV k) ∧
    ∃ w, exec (.ldVxMem x) u = .next w ∧ (∀ k : Reg, k ≤ x → w.getV k = u.mem.read (u.i.toNat + k.val)) ∧
      ((∀ k : Reg, k ≤ x → u.mem.read (t.i.toNat + k.val) = t.mem.read (t.i.toNat + k.val)) →
        ∀ k : Reg, k ≤ x → w.getV k = s.getV k)

/-! ### Whole-machine rules -/

/-- Every instruction changes only its own parts of the state and writes only its own registers: memory only by `Fx33` and
`Fx55`, the stack only by `2nnn` and `00EE`, the display only by `00E0` and `Dxyn`, I only by `Annn`, `Fx1E` and `Fx29`, DT
only by `Fx15`, ST only by `Fx18`, the keypad and the run state by none (rules R33, R41, R43, R50, R51, R71, R261).
That the logic operations leave VF alone is the spec's decision D12 (log entry 20), that the block instructions leave I alone
its decision D15 (log entry 25). -/
def Obligations.InstructionsKeepTheirFrame : Prop :=
  ∀ (i : Instr) (s t : State), exec i s = .next t →
    OnlyChanges (changesOf i) s t ∧ ∀ r, writesReg i r = false → t.getV r = s.getV r

/-- Every instruction that completes leaves PC as the table says: A + 2, or its skip, its target, the popped value, or A for a
key wait (rule R37).
That an out-of-range target is no fault is the spec's decision D7 (log entry 23). -/
def Obligations.PcFollowsTheTable : Prop :=
  ∀ (i : Instr) (s t : State), exec i s = .next t → PcFollows i s t

/-- An instruction raises only its own fatal conditions, with pc = A and its own opcode in the record: the ALU family, the
jumps, the register skips and the timer moves raise none (rules R150, R271, R273).
`KeyIndexOutOfRange` and `IndexOverflow` are the spec's decisions D17 and D14 (log entries 22 and 21), the record's form its
decision D23 (log entry 28). -/
def Obligations.InstructionsRaiseOnlyTheirFaults : Prop :=
  ∀ (i : Instr) (s : State) (f : Fault), exec i s = .fault f →
    mayRaise i f = true ∧ f.pc? = some (s.pc - 2) ∧ f.opcode? = some (encode i)

/-- Only `Ex9E`, `ExA1` and `Fx0A` read the keypad: any other instruction does the same under any snapshot and carries it along
(rules R51, R286).
`Cxnn` is compared with the same draw in both executions: the model's free byte is one function of the draw counter (log entry
15). -/
def Obligations.OthersDoNotReadTheKeypad : Prop :=
  ∀ (i : Instr) (s : State) (k : Keypad), readsKeypad i = false →
    exec i (s.refreshKeys k) = mapNext (fun t => t.refreshKeys k) (exec i s)

/-- The timers are read by `Fx07` alone: any instruction but `Fx18` does the same whatever ST is and carries it along, and any
instruction but `Fx07` and `Fx15` does the same whatever DT is; `Fx18` and `Fx15` overwrite the timer, and what it held does not
matter (rules R47, R48).
`Cxnn` and `Fx0A` are compared with the same draw in both executions: the model's free values are functions of the draw counter
(log entry 15). -/
def Obligations.TimersAreReadByLoadAlone : Prop :=
  ∀ (i : Instr) (s : State) (b : Byte) (r : Reg),
    ((∀ x, i ≠ .ldStVx x) → exec i (s.setSt b) = mapNext (fun t => t.setSt b) (exec i s)) ∧
    ((∀ x, i ≠ .ldVxDt x ∧ i ≠ .ldDtVx x) → exec i (s.setDt b) = mapNext (fun t => t.setDt b) (exec i s)) ∧
    exec (.ldStVx r) (s.setSt b) = exec (.ldStVx r) s ∧ exec (.ldDtVx r) (s.setDt b) = exec (.ldDtVx r) s

/-! ### The invariant -/

/-- The start state with any FONT and any ROM that fits meets the invariant: memory in its canonical form, PC and the stack in
bounds. Of the state after a failed load nothing is said (rule R282).
The canonical form is the model's own (log entry 13). -/
def Obligations.LoadMeetsTheInvariant : Prop :=
  ∀ (font : FontTable) (rom : List Byte), rom.length ≤ 3584 → (State.load font rom).Inv

/-- The state after reset meets the invariant.
The canonical form is the model's own (log entry 13). -/
def Obligations.ResetMeetsTheInvariant : Prop := State.reset.Inv

/-- Every step keeps the invariant: memory stays in its canonical form inside 4096 bytes, PC stays ≤ 0x10FE and every return
address ≤ 0x1000, so that no PC computation wraps (rules R39, R70).
The canonical form is the model's own (log entry 13), that PC is checked at the fetch alone the spec's decision D7
(log entry 23). -/
def Obligations.StepKeepsTheInvariant : Prop :=
  ∀ s t : State, s.Inv → step s = .next t → t.Inv

/-! ### The end of a run -/

/-- At a self-jump every step goes on and leaves the core there: PC, the registers, I, memory, the stack, the display and the run
state stay, the next state is at the self-jump again, and the timers go on counting to zero on every tick (rules R202, R316).
Taking the self-jump for the end of a run is the spec's decision D30 (log entry 31). -/
def Obligations.SelfJumpRepeats : Prop :=
  ∀ s : State, s.atSelfJump = true →
    ∃ t, step s = .next t ∧ t.atSelfJump = true ∧ OnlyChanges [.dt, .st, .key, .script, .draws] s t ∧
      (s.takeTurn.1 = .tick → t.dt.toNat = s.dt.toNat - 1 ∧ t.st.toNat = s.st.toNat - 1) ∧
      (s.takeTurn.1 ≠ .tick → t.dt = s.dt ∧ t.st = s.st)

/-- A run of at most n steps is observed at its first end: at a state that it reaches and that is at a self-jump; or at a fatal
condition, which a step from a state that it reaches raises; or after n steps. No state it reaches before is at a self-jump, and
it ends nowhere else (rule R316).
The ends of a run are the spec's decision D30 (log entry 31). -/
def Obligations.RunIsObservedAtItsFirstEnd : Prop :=
  ∀ (n : Nat) (s : State),
    ∃ k, k ≤ n ∧ ∃ t, Sys2Proof.core.run k s = .next t ∧
      (∀ j u, j < k → Sys2Proof.core.run j s = .next u → u.run = .running ∧ u.atSelfJump = false) ∧
      ((runToEnd n s = .selfJump t ∧ t.atSelfJump = true) ∨
        (∃ f, runToEnd n s = .fatal f ∧ step t = .fault f ∧ t.atSelfJump = false ∧ (k < n ∨ t.run = .halted f)) ∨
        (runToEnd n s = .bound t ∧ k = n ∧ t.run = .running ∧ t.atSelfJump = false))
end

