-- ==== Sys2Proof/Laws/Decode.lean ====
section
/-! SUPPORT. The encoder's packed words and the decoder's fields, each read back from the other; a masked word in terms of its
fields; the two bytes of a word. -/

namespace Sys2Proof

/-! ### The packed words as numbers -/

theorem packA_toNat {f : Nat} (hf : f < 16) (nnn : Addr12) : (packA f nnn).toNat = f * 0x1000 + nnn.toNat := by
  simp [packA]; omega

theorem packXI_toNat {f : Nat} (hf : f < 16) (x : Reg) (nn : Byte) :
    (packXI f x nn).toNat = f * 0x1000 + x.val * 0x100 + nn.toNat := by
  simp [packXI]; omega

theorem packXYN_toNat {f : Nat} (hf : f < 16) (x y : Reg) (n : Nibble) :
    (packXYN f x y n).toNat = f * 0x1000 + x.val * 0x100 + y.val * 0x10 + n.toNat := by
  simp [packXYN]; omega

/-! ### The fields as numbers (rule R101) -/

theorem Opcode.family_toNat (op : Opcode) : (Opcode.family op).toNat = op.toNat / 0x1000 := by
  simp [Opcode.family, BitVec.extractLsb'_toNat, Nat.shiftRight_eq_div_pow]; omega

theorem Opcode.x_val (op : Opcode) : (Opcode.x op).val = op.toNat / 0x100 % 16 := by
  change (BitVec.extractLsb' 8 4 op).toNat = _
  simp [BitVec.extractLsb'_toNat, Nat.shiftRight_eq_div_pow]

theorem Opcode.y_val (op : Opcode) : (Opcode.y op).val = op.toNat / 0x10 % 16 := by
  change (BitVec.extractLsb' 4 4 op).toNat = _
  simp [BitVec.extractLsb'_toNat, Nat.shiftRight_eq_div_pow]

theorem Opcode.n_toNat (op : Opcode) : (Opcode.n op).toNat = op.toNat % 16 := by
  simp [Opcode.n, BitVec.extractLsb'_toNat]

theorem Opcode.nn_toNat (op : Opcode) : (Opcode.nn op).toNat = op.toNat % 256 := by
  simp [Opcode.nn, BitVec.extractLsb'_toNat]

theorem Opcode.nnn_toNat (op : Opcode) : (Opcode.nnn op).toNat = op.toNat % 4096 := by
  simp [Opcode.nnn, BitVec.extractLsb'_toNat]

/-! ### The fields of a packed word -/

variable {f : Nat}

theorem family_packA (hf : f < 16) (nnn : Addr12) : Opcode.family (packA f nnn) = BitVec.ofNat 4 f :=
  BitVec.eq_of_toNat_eq (by rw [Opcode.family_toNat, packA_toNat hf, BitVec.toNat_ofNat]; omega)

theorem nnn_packA (hf : f < 16) (nnn : Addr12) : Opcode.nnn (packA f nnn) = nnn :=
  BitVec.eq_of_toNat_eq (by rw [Opcode.nnn_toNat, packA_toNat hf]; omega)

theorem family_packXI (hf : f < 16) (x : Reg) (nn : Byte) : Opcode.family (packXI f x nn) = BitVec.ofNat 4 f :=
  BitVec.eq_of_toNat_eq (by rw [Opcode.family_toNat, packXI_toNat hf, BitVec.toNat_ofNat]; omega)

theorem x_packXI (hf : f < 16) (x : Reg) (nn : Byte) : Opcode.x (packXI f x nn) = x :=
  Fin.ext (by rw [Opcode.x_val, packXI_toNat hf]; omega)

theorem nn_packXI (hf : f < 16) (x : Reg) (nn : Byte) : Opcode.nn (packXI f x nn) = nn :=
  BitVec.eq_of_toNat_eq (by rw [Opcode.nn_toNat, packXI_toNat hf]; omega)

theorem family_packXYN (hf : f < 16) (x y : Reg) (n : Nibble) :
    Opcode.family (packXYN f x y n) = BitVec.ofNat 4 f :=
  BitVec.eq_of_toNat_eq (by rw [Opcode.family_toNat, packXYN_toNat hf, BitVec.toNat_ofNat]; omega)

theorem x_packXYN (hf : f < 16) (x y : Reg) (n : Nibble) : Opcode.x (packXYN f x y n) = x :=
  Fin.ext (by rw [Opcode.x_val, packXYN_toNat hf]; omega)

theorem y_packXYN (hf : f < 16) (x y : Reg) (n : Nibble) : Opcode.y (packXYN f x y n) = y :=
  Fin.ext (by rw [Opcode.y_val, packXYN_toNat hf]; omega)

theorem n_packXYN (hf : f < 16) (x y : Reg) (n : Nibble) : Opcode.n (packXYN f x y n) = n :=
  BitVec.eq_of_toNat_eq (by rw [Opcode.n_toNat, packXYN_toNat hf]; omega)

/-! ### A word is the packing of its own fields -/

theorem packA_fields {w : Opcode} (hf : f < 16) (h : Opcode.family w = BitVec.ofNat 4 f) :
    packA f (Opcode.nnn w) = w := by
  have h' := congrArg BitVec.toNat h
  rw [Opcode.family_toNat, BitVec.toNat_ofNat] at h'
  exact BitVec.eq_of_toNat_eq (by rw [packA_toNat hf, Opcode.nnn_toNat]; omega)

theorem packXI_fields {w : Opcode} (hf : f < 16) (h : Opcode.family w = BitVec.ofNat 4 f) :
    packXI f (Opcode.x w) (Opcode.nn w) = w := by
  have h' := congrArg BitVec.toNat h
  rw [Opcode.family_toNat, BitVec.toNat_ofNat] at h'
  exact BitVec.eq_of_toNat_eq (by rw [packXI_toNat hf, Opcode.nn_toNat, Opcode.x_val]; omega)

theorem packXYN_fields {w : Opcode} (hf : f < 16) (h : Opcode.family w = BitVec.ofNat 4 f) :
    packXYN f (Opcode.x w) (Opcode.y w) (Opcode.n w) = w := by
  have h' := congrArg BitVec.toNat h
  rw [Opcode.family_toNat, BitVec.toNat_ofNat] at h'
  exact BitVec.eq_of_toNat_eq (by rw [packXYN_toNat hf, Opcode.n_toNat, Opcode.x_val, Opcode.y_val]; omega)

/-! ### A masked word in terms of its fields (the three masks of rule R110 that leave fields out) -/

theorem and_F000 (w : Opcode) : w &&& 0xF000#16 = (Opcode.family w).setWidth 16 <<< 12 := by
  unfold Opcode.family; ext i hi; interval_cases i <;> simp

theorem and_F00F (w : Opcode) :
    w &&& 0xF00F#16 = (Opcode.family w).setWidth 16 <<< 12 ||| (Opcode.n w).setWidth 16 := by
  unfold Opcode.family Opcode.n; ext i hi; interval_cases i <;> simp

theorem and_F0FF (w : Opcode) :
    w &&& 0xF0FF#16 = (Opcode.family w).setWidth 16 <<< 12 ||| (Opcode.nn w).setWidth 16 := by
  unfold Opcode.family Opcode.nn; ext i hi; interval_cases i <;> simp

theorem packA_and_mask (hf : f < 16) (nnn : Addr12) :
    packA f nnn &&& 0xF000#16 = (BitVec.ofNat 4 f).setWidth 16 <<< 12 := by
  rw [and_F000, family_packA hf]

theorem packXI_and_mask (hf : f < 16) (x : Reg) (nn : Byte) :
    packXI f x nn &&& 0xF000#16 = (BitVec.ofNat 4 f).setWidth 16 <<< 12 := by
  rw [and_F000, family_packXI hf]

theorem packXK_and_mask (hf : f < 16) (x : Reg) (nn : Byte) :
    packXI f x nn &&& 0xF0FF#16 = (BitVec.ofNat 4 f).setWidth 16 <<< 12 ||| nn.setWidth 16 := by
  rw [and_F0FF, family_packXI hf, nn_packXI hf]

theorem packXY_and_mask (hf : f < 16) (x y : Reg) (n : Nibble) :
    packXYN f x y n &&& 0xF00F#16 = (BitVec.ofNat 4 f).setWidth 16 <<< 12 ||| n.setWidth 16 := by
  rw [and_F00F, family_packXYN hf, n_packXYN hf]

theorem packXYN_and_mask (hf : f < 16) (x y : Reg) (n : Nibble) :
    packXYN f x y n &&& 0xF000#16 = (BitVec.ofNat 4 f).setWidth 16 <<< 12 := by
  rw [and_F000, family_packXYN hf]

/-! ### The two bytes of a word (rules R74, R112) -/

theorem joinBytes_toNat (hi lo : Byte) : (joinBytes hi lo).toNat = hi.toNat * 0x100 + lo.toNat := by
  simp [joinBytes]; omega

/-- A word is its high byte followed by its low byte. -/
theorem joinBytes_high_low (op : Opcode) : joinBytes (highByte op) (lowByte op) = op := by
  apply BitVec.eq_of_toNat_eq
  rw [joinBytes_toNat]
  simp [highByte, lowByte, BitVec.extractLsb'_toNat, Nat.shiftRight_eq_div_pow]; omega

/-- A 16-bit table row's word is the word itself. -/
theorem tableWord_toNat (op : Opcode) : tableWord 16 op.toNat = op := by
  apply BitVec.eq_of_toNat_eq
  simp [tableWord]; omega

end Sys2Proof
end

