-- ==== Sys2Proof/Laws/Display.lean ====
section
/-! SUPPORT. The display: a cell read after a write, and what drawing a pixel, a row and a sprite does to every cell and to the
collision flag, each said once. -/

namespace Sys2Proof.Machine

/-- A cell written is read back, and every other cell reads as before. -/
theorem readCell_writeCell (d : Display) (x x' : Fin 64) (y y' : Fin 32) (b : Bool) :
    readCell (writeCell d x y b) x' y' = if x' = x ∧ y' = y then b else readCell d x' y' := by
  unfold readCell writeCell
  by_cases hy : y = y'
  · subst hy
    by_cases hx : x = x'
    · subst hx; simp
    · have h1 : x.val ≠ x'.val := fun e => hx (Fin.ext e)
      have h2 : ¬ x' = x := fun e => hx e.symm
      simp [h1, h2]
  · have h1 : y.val ≠ y'.val := fun e => hy (Fin.ext e)
    have h2 : ¬ y' = y := fun e => hy e.symm
    simp [h1, h2]

@[simp] theorem readCell_clearDisplay (x : Fin 64) (y : Fin 32) : readCell clearDisplay x y = false := by
  simp [readCell, clearDisplay]

/-- Two displays with the same cells are the same. -/
theorem display_ext {d e : Display} (h : ∀ x y, readCell d x y = readCell e x y) : d = e := by
  apply Vector.ext; intro y hy
  apply Vector.ext; intro x hx
  exact h ⟨x, hx⟩ ⟨y, hy⟩

/-! ### Pixels (rule R185) -/

/-- A drawn pixel flips its cell if the sprite bit is set, and no other cell. -/
theorem readCell_drawPixel (x y : Nat) (bit : Bool) (dc : Display × Bool) (cx : Fin 64) (cy : Fin 32) :
    readCell (drawPixel x y bit dc).1 cx cy =
      (readCell dc.1 cx cy ^^ (bit && decide (cx.val = x ∧ cy.val = y))) := by
  unfold drawPixel
  split
  · next hx =>
    split
    · next hy =>
      have key : (cx = ⟨x, hx⟩ ∧ cy = ⟨y, hy⟩) ↔ (cx.val = x ∧ cy.val = y) := by simp [Fin.ext_iff]
      by_cases hc : cx.val = x ∧ cy.val = y
      · obtain ⟨rfl, rfl⟩ := key.mpr hc
        cases bit <;> cases h : readCell dc.1 ⟨x, hx⟩ ⟨y, hy⟩ <;> simp [readCell_writeCell, h]
      · cases bit <;> cases readCell dc.1 ⟨x, hx⟩ ⟨y, hy⟩ <;> simp [readCell_writeCell, key, hc]
    · next hy =>
      have : ¬ (cx.val = x ∧ cy.val = y) := fun h => hy (h.2 ▸ cy.isLt)
      simp [this]
  · next hx =>
    have : ¬ (cx.val = x ∧ cy.val = y) := fun h => hx (h.1 ▸ cx.isLt)
    simp [this]

/-- A drawn pixel collides exactly when its bit is set, it is in the grid and its cell was lit. -/
theorem drawPixel_collision (x y : Nat) (bit : Bool) (dc : Display × Bool) :
    (drawPixel x y bit dc).2 = true ↔
      dc.2 = true ∨ bit = true ∧ ∃ (cx : Fin 64) (cy : Fin 32), cx.val = x ∧ cy.val = y ∧ readCell dc.1 cx cy = true := by
  unfold drawPixel
  split
  · next hx =>
    split
    · next hy =>
      have key : (∃ (cx : Fin 64) (cy : Fin 32), cx.val = x ∧ cy.val = y ∧ readCell dc.1 cx cy = true) ↔
          readCell dc.1 ⟨x, hx⟩ ⟨y, hy⟩ = true := by
        constructor
        · rintro ⟨cx, cy, rfl, rfl, h⟩; exact h
        · exact fun h => ⟨_, _, rfl, rfl, h⟩
      rw [key]
      cases bit <;> cases h : readCell dc.1 ⟨x, hx⟩ ⟨y, hy⟩ <;> simp
    · next hy =>
      simp only [iff_self_or]
      rintro ⟨-, cx, cy, -, rfl, -⟩
      exact absurd cy.isLt hy
  · next hx =>
    simp only [iff_self_or]
    rintro ⟨-, cx, cy, rfl, -, -⟩
    exact absurd cx.isLt hx

/-! ### A row of eight columns -/

/-- Whether one of the `left` rightmost columns of the row covers column cx of row cy with a set bit. -/
def columnsCover (x0 y : Nat) (byte : Byte) (left cx cy : Nat) : Bool :=
  decide (x0 + 8 ≤ cx + left ∧ cx < x0 + 8 ∧ cy = y) && byte.getLsbD (7 - (cx - x0))

theorem columnsCover_zero (x0 y : Nat) (byte : Byte) (cx cy : Nat) : columnsCover x0 y byte 0 cx cy = false := by
  simp [columnsCover]; omega

/-- One column more: its pixel, or one of the columns right of it. -/
theorem columnsCover_succ (x0 y : Nat) (byte : Byte) {left : Nat} (hl : left < 8) (cx cy : Nat) :
    columnsCover x0 y byte (left + 1) cx cy =
      (columnsCover x0 y byte left cx cy ||
        (byte.getLsbD left && decide (cx = x0 + (7 - left) ∧ cy = y))) := by
  unfold columnsCover
  by_cases hc : cx = x0 + (7 - left) ∧ cy = y
  · obtain ⟨rfl, rfl⟩ := hc
    have h1 : 7 - (x0 + (7 - left) - x0) = left := by omega
    have h2 : ¬ (x0 + 8 ≤ x0 + (7 - left) + left) := by omega
    have h3 : x0 + 8 ≤ x0 + (7 - left) + (left + 1) := by omega
    have h4 : x0 + (7 - left) < x0 + 8 := by omega
    rw [h1]; simp [h2, h3, h4]
  · have : (x0 + 8 ≤ cx + (left + 1) ∧ cx < x0 + 8 ∧ cy = y) ↔ (x0 + 8 ≤ cx + left ∧ cx < x0 + 8 ∧ cy = y) := by
      omega
    simp only [this, hc, decide_false, Bool.and_false, Bool.or_false]

/-- The two parts of a row cover no cell twice. -/
theorem columnsCover_disjoint (x0 y : Nat) (byte : Byte) {left : Nat} (hl : left < 8) (cx cy : Nat)
    (hc : cx = x0 + (7 - left) ∧ cy = y) : columnsCover x0 y byte left cx cy = false := by
  unfold columnsCover
  have : ¬ (x0 + 8 ≤ cx + left ∧ cx < x0 + 8 ∧ cy = y) := by omega
  simp [this]

theorem readCell_drawColumns (x0 y : Nat) (byte : Byte) (left : Nat) (hl : left ≤ 8) (dc : Display × Bool)
    (cx : Fin 64) (cy : Fin 32) :
    readCell (drawColumns x0 y byte left dc).1 cx cy = (readCell dc.1 cx cy ^^ columnsCover x0 y byte left cx cy) := by
  induction left generalizing dc with
  | zero => simp [drawColumns, columnsCover_zero]
  | succ left ih =>
    rw [drawColumns, ih (by omega), readCell_drawPixel, columnsCover_succ _ _ _ (by omega)]
    by_cases hc : cx.val = x0 + (7 - left) ∧ cy.val = y
    · rw [columnsCover_disjoint _ _ _ (by omega) _ _ hc]; simp
    · simp [hc]

theorem drawColumns_collision (x0 y : Nat) (byte : Byte) (left : Nat) (hl : left ≤ 8) (dc : Display × Bool) :
    (drawColumns x0 y byte left dc).2 = true ↔
      dc.2 = true ∨ ∃ (cx : Fin 64) (cy : Fin 32),
        columnsCover x0 y byte left cx cy = true ∧ readCell dc.1 cx cy = true := by
  induction left generalizing dc with
  | zero => simp [drawColumns, columnsCover_zero]
  | succ left ih =>
    rw [drawColumns, ih (by omega), drawPixel_collision]
    simp only [readCell_drawPixel, columnsCover_succ x0 y byte (show left < 8 by omega)]
    constructor
    · rintro ((h | ⟨hb, cx, cy, hx, hy, hr⟩) | ⟨cx, cy, hcov, hr⟩)
      · exact .inl h
      · exact .inr ⟨cx, cy, by simp [hb, hx, hy], hr⟩
      · refine .inr ⟨cx, cy, by simp [hcov], ?_⟩
        by_cases hc : cx.val = x0 + (7 - left) ∧ cy.val = y
        · rw [columnsCover_disjoint _ _ _ (by omega) _ _ hc] at hcov; cases hcov
        · simpa [hc] using hr
    · rintro (h | ⟨cx, cy, hcov, hr⟩)
      · exact .inl (.inl h)
      · rcases Bool.or_eq_true _ _ ▸ hcov with hcov | hpix
        · refine .inr ⟨cx, cy, hcov, ?_⟩
          by_cases hc : cx.val = x0 + (7 - left) ∧ cy.val = y
          · rw [columnsCover_disjoint _ _ _ (by omega) _ _ hc] at hcov; cases hcov
          · simpa [hc] using hr
        · simp only [Bool.and_eq_true, decide_eq_true_eq] at hpix
          exact .inl (.inr ⟨hpix.1, cx, cy, hpix.2.1, hpix.2.2, hr⟩)

/-! ### The rows of a sprite (rule R182) -/

/-- Whether the sprite of these bytes from row y covers column cx of row cy with a set bit. -/
def rowsCover (x0 y : Nat) (rows : List Byte) (cx cy : Nat) : Bool :=
  decide (x0 ≤ cx ∧ cx < x0 + 8 ∧ y ≤ cy) && (rows.getD (cy - y) 0).getLsbD (7 - (cx - x0))

theorem rowsCover_nil (x0 y cx cy : Nat) : rowsCover x0 y [] cx cy = false := by simp [rowsCover]

/-- One row more: the first row, or one of the rows below it. -/
theorem rowsCover_cons (x0 y : Nat) (byte : Byte) (rest : List Byte) (cx cy : Nat) :
    rowsCover x0 y (byte :: rest) cx cy =
      (rowsCover x0 (y + 1) rest cx cy || columnsCover x0 y byte 8 cx cy) := by
  unfold rowsCover columnsCover
  by_cases hc : cy = y
  · subst hc; simp
  · by_cases hlt : y ≤ cy
    · have h1 : cy - y = (cy - (y + 1)) + 1 := by omega
      have h2 : y + 1 ≤ cy := by omega
      rw [h1]; simp [hc, h2, hlt]
    · have h2 : ¬ y + 1 ≤ cy := by omega
      simp [hc, h2, hlt]

/-- The first row and the rows below it cover no cell twice. -/
theorem rowsCover_disjoint (x0 y : Nat) (byte : Byte) (rest : List Byte) (cx cy : Nat)
    (h : columnsCover x0 y byte 8 cx cy = true) : rowsCover x0 (y + 1) rest cx cy = false := by
  have : cy = y := by simp [columnsCover] at h; exact h.1.2.2
  simp [rowsCover, this]

/-- A drawn sprite flips the cells its set bits cover, and no other cell. -/
theorem readCell_drawRows (x0 y : Nat) (rows : List Byte) (dc : Display × Bool) (cx : Fin 64) (cy : Fin 32) :
    readCell (drawRows x0 y rows dc).1 cx cy = (readCell dc.1 cx cy ^^ rowsCover x0 y rows cx cy) := by
  induction rows generalizing y dc with
  | nil => simp [drawRows, rowsCover_nil]
  | cons byte rest ih =>
    rw [drawRows, ih, readCell_drawColumns _ _ _ _ (by omega), rowsCover_cons]
    cases h : columnsCover x0 y byte 8 cx cy
    · simp
    · simp [rowsCover_disjoint _ _ _ rest _ _ h]

/-- A drawn sprite collides exactly when one of its set bits covers a lit cell (rule R186). -/
theorem drawRows_collision (x0 y : Nat) (rows : List Byte) (dc : Display × Bool) :
    (drawRows x0 y rows dc).2 = true ↔
      dc.2 = true ∨ ∃ (cx : Fin 64) (cy : Fin 32),
        rowsCover x0 y rows cx cy = true ∧ readCell dc.1 cx cy = true := by
  induction rows generalizing y dc with
  | nil => simp [drawRows, rowsCover_nil]
  | cons byte rest ih =>
    rw [drawRows, ih, drawColumns_collision _ _ _ _ (by omega)]
    simp only [readCell_drawColumns x0 y byte 8 (by omega), rowsCover_cons]
    constructor
    · rintro ((h | ⟨cx, cy, hc, hr⟩) | ⟨cx, cy, hc, hr⟩)
      · exact .inl h
      · exact .inr ⟨cx, cy, by simp [hc], hr⟩
      · refine .inr ⟨cx, cy, by simp [hc], ?_⟩
        cases h : columnsCover x0 y byte 8 cx cy
        · simpa [h] using hr
        · rw [rowsCover_disjoint _ _ _ rest _ _ h] at hc; cases hc
    · rintro (h | ⟨cx, cy, hc, hr⟩)
      · exact .inl (.inl h)
      · cases h : columnsCover x0 y byte 8 cx cy
        · exact .inr ⟨cx, cy, by simpa [h] using hc, by simp [h, hr]⟩
        · exact .inl (.inr ⟨cx, cy, h, hr⟩)

end Sys2Proof.Machine
end

