-- ==== Sys2Proof/Laws/Memory.lean ====
section
/-! SUPPORT. Memory: a read after a write, that every operation keeps the canonical form, and what a block read and a block write
can do, each said once. -/

namespace Sys2Proof.Machine

/-! ### Single bytes -/

theorem Memory.read_erase_self (m : Memory) (a : Nat) : (m.erase a).read a = Memory.initial a := by
  induction m with
  | nil => rfl
  | cons c rest ih =>
    obtain ⟨k, b⟩ := c
    by_cases h : k = a
    · simpa [Memory.erase, h] using ih
    · simpa [Memory.erase, h, Memory.read] using ih

theorem Memory.read_erase_of_ne (m : Memory) {a c : Nat} (h : c ≠ a) : (m.erase a).read c = m.read c := by
  induction m with
  | nil => rfl
  | cons d rest ih =>
    obtain ⟨k, b⟩ := d
    by_cases hk : k = a
    · simpa [Memory.erase, Memory.read, hk, Ne.symm h] using ih
    · by_cases hc : k = c
      · simp [Memory.erase, Memory.read, hc, h]
      · simpa [Memory.erase, Memory.read, hk, hc] using ih

theorem Memory.read_insert_of_ne (m : Memory) {a c : Nat} (h : c ≠ a) (b : Byte) :
    (m.insert a b).read c = m.read c := by
  induction m with
  | nil => simp [Memory.insert, Memory.read, Ne.symm h]
  | cons d rest ih =>
    obtain ⟨k, x⟩ := d
    unfold Memory.insert
    split
    · simp [Memory.read, Ne.symm h]
    · simp [Memory.read, ih]

theorem Memory.read_insert_self (m : Memory) (a : Nat) (b : Byte) (h : ∀ c ∈ m, c.1 ≠ a) :
    (m.insert a b).read a = b := by
  induction m with
  | nil => simp [Memory.insert, Memory.read]
  | cons d rest ih =>
    obtain ⟨k, x⟩ := d
    have hk : k ≠ a := h (k, x) (by simp)
    unfold Memory.insert
    split
    · simp [Memory.read]
    · simpa [Memory.read, hk] using ih fun c hc => h c (by simp [hc])

theorem Memory.ne_of_mem_erase {m : Memory} {a : Nat} : ∀ c ∈ m.erase a, c.1 ≠ a := by
  intro c hc
  simpa [Memory.erase] using (List.mem_filter.mp hc).2

/-- A byte written is read back, and every other address reads as before. -/
theorem Memory.read_write (m : Memory) (a c : Nat) (b : Byte) :
    (m.write a b).read c = if c = a then b else m.read c := by
  unfold Memory.write
  split
  · next h =>
    split
    · next hc => rw [hc, Memory.read_erase_self, h]
    · next hc => exact Memory.read_erase_of_ne m hc
  · split
    · next hc => rw [hc]; exact Memory.read_insert_self _ _ _ Memory.ne_of_mem_erase
    · next hc => rw [Memory.read_insert_of_ne _ hc, Memory.read_erase_of_ne m hc]

/-! ### The canonical form -/

/-- What the canonical form says. -/
theorem Memory.wf_iff (m : Memory) :
    m.wf = true ↔ (∀ c ∈ m, c.1 < Config.memSize ∧ c.2 ≠ Memory.initial c.1) ∧ m.Pairwise (fun c d => c.1 < d.1) := by
  simp [Memory.wf]

theorem Memory.wf_nil : Memory.wf [] = true := by simp [Memory.wf]

theorem Memory.wf_erase {m : Memory} (h : m.wf = true) (a : Nat) : (m.erase a).wf = true := by
  rw [Memory.wf_iff] at h ⊢
  exact ⟨fun c hc => h.1 c (List.mem_filter.mp hc).1, h.2.filter _⟩

theorem Memory.mem_insert {m : Memory} {a : Nat} {b : Byte} {c : Host.Cell} (h : c ∈ m.insert a b) :
    c = (a, b) ∨ c ∈ m := by
  induction m with
  | nil => simpa [Memory.insert] using h
  | cons d rest ih =>
    obtain ⟨k, x⟩ := d
    unfold Memory.insert at h
    split at h
    · simpa using h
    · rcases List.mem_cons.mp h with h | h
      · exact .inr (by simp [h])
      · exact (ih h).imp_right fun h => by simp [h]

theorem Memory.pairwise_insert {m : Memory} (h : m.Pairwise (fun c d => c.1 < d.1)) (a : Nat) (b : Byte)
    (hne : ∀ c ∈ m, c.1 ≠ a) : (m.insert a b).Pairwise (fun c d => c.1 < d.1) := by
  induction m with
  | nil => simp [Memory.insert]
  | cons d rest ih =>
    obtain ⟨k, x⟩ := d
    obtain ⟨hd, hr⟩ := List.pairwise_cons.mp h
    have hk : k ≠ a := hne (k, x) (by simp)
    unfold Memory.insert
    split
    · next hlt =>
      refine List.pairwise_cons.mpr ⟨fun c hc => ?_, h⟩
      rcases List.mem_cons.mp hc with rfl | hc
      · exact hlt
      · exact Nat.lt_trans hlt (hd c hc)
    · next hge =>
      refine List.pairwise_cons.mpr ⟨fun c hc => ?_, ih hr fun c hc => hne c (by simp [hc])⟩
      rcases Memory.mem_insert hc with rfl | hc
      · simp only; omega
      · exact hd c hc

/-- A write inside the address space keeps the canonical form. -/
theorem Memory.wf_write {m : Memory} (h : m.wf = true) {a : Nat} (ha : a < Config.memSize) (b : Byte) :
    (m.write a b).wf = true := by
  unfold Memory.write
  split
  · exact Memory.wf_erase h a
  · next hb =>
    have he := Memory.wf_erase h a
    rw [Memory.wf_iff] at he ⊢
    refine ⟨fun c hc => ?_, Memory.pairwise_insert he.2 a b Memory.ne_of_mem_erase⟩
    rcases Memory.mem_insert hc with rfl | hc
    · exact ⟨ha, hb⟩
    · exact he.1 c hc

/-! ### Checked accesses (rule R72) -/

theorem memRead_eq_ok {m : Memory} {a : Nat} {b : Byte} :
    memRead m a = .ok b ↔ a < Config.memSize ∧ m.read a = b := by
  unfold memRead; split <;> simp_all

theorem memRead_eq_error {m : Memory} {a e : Nat} : memRead m a = .error e ↔ Config.memSize ≤ a ∧ a = e := by
  unfold memRead; split <;> simp_all

theorem memWrite_eq_ok {m m' : Memory} {a : Nat} {b : Byte} :
    memWrite m a b = .ok m' ↔ a < Config.memSize ∧ m.write a b = m' := by
  unfold memWrite; split <;> simp_all

theorem memWrite_eq_error {m : Memory} {a e : Nat} {b : Byte} :
    memWrite m a b = .error e ↔ Config.memSize ≤ a ∧ a = e := by
  unfold memWrite; split <;> simp_all

/-! ### Blocks (rules R73, R250) -/

/-- A block inside the address space is read whole, byte k from address a + k. -/
theorem readBlock_ok (m : Memory) (a n : Nat) (h : a + n ≤ Config.memSize) :
    readBlock m a n = .ok ((List.range n).map fun k => m.read (a + k)) := by
  induction n generalizing a with
  | zero => rfl
  | succ n ih =>
    have h0 : memRead m a = .ok (m.read a) := memRead_eq_ok.mpr ⟨by omega, rfl⟩
    simp only [readBlock, h0, ih (a + 1) (by omega), List.range_succ_eq_map, List.map_cons, List.map_map]
    simp [Function.comp_def, Nat.add_assoc, Nat.add_comm 1]

/-- A block that leaves the address space answers its first address outside. -/
theorem readBlock_error (m : Memory) (a n : Nat) (hn : 0 < n) (h : Config.memSize < a + n) :
    readBlock m a n = .error (max a Config.memSize) := by
  induction n generalizing a with
  | zero => omega
  | succ n ih =>
    by_cases ha : a < Config.memSize
    · have h0 : memRead m a = .ok (m.read a) := memRead_eq_ok.mpr ⟨ha, rfl⟩
      have hm : max (a + 1) Config.memSize = max a Config.memSize := by omega
      simp [readBlock, h0, ih (a + 1) (by omega) (by omega), hm]
    · have h0 : memRead m a = .error a := memRead_eq_error.mpr ⟨by omega, rfl⟩
      have hm : max a Config.memSize = a := by omega
      simp [readBlock, h0, hm]

/-- A block inside the address space is written whole: byte k at a + k, every other address as before; the canonical form is
kept. -/
theorem writeBlock_ok (m : Memory) (a : Nat) (bs : List Byte) (h : a + bs.length ≤ Config.memSize) :
    ∃ m', writeBlock m a bs = .ok m' ∧ (m.wf = true → m'.wf = true) ∧
      ∀ c, m'.read c = if a ≤ c ∧ c < a + bs.length then bs.getD (c - a) 0 else m.read c := by
  induction bs generalizing m a with
  | nil => exact ⟨m, rfl, id, fun c => by rw [if_neg (by simp)]⟩
  | cons b bs ih =>
    simp only [List.length_cons] at h
    have ha : a < Config.memSize := by omega
    have h0 : memWrite m a b = .ok (m.write a b) := memWrite_eq_ok.mpr ⟨ha, rfl⟩
    obtain ⟨m', hw, hwf, hr⟩ := ih (m.write a b) (a + 1) (by omega)
    refine ⟨m', by simp [writeBlock, h0, hw], fun h => hwf (Memory.wf_write h ha b), fun c => ?_⟩
    rw [hr c, Memory.read_write]
    simp only [List.length_cons]
    by_cases hc : c = a
    · subst hc
      rw [if_neg (by omega), if_pos rfl, if_pos (by omega)]; simp
    · by_cases hin : a + 1 ≤ c ∧ c < a + 1 + bs.length
      · rw [if_pos hin, if_pos (by omega)]
        have : c - a = (c - (a + 1)) + 1 := by omega
        rw [this]; simp
      · rw [if_neg hin, if_neg hc, if_neg (by omega)]

/-- A block write that leaves the address space answers its first address outside. -/
theorem writeBlock_error (m : Memory) (a : Nat) (bs : List Byte) (hn : bs ≠ []) (h : Config.memSize < a + bs.length) :
    writeBlock m a bs = .error (max a Config.memSize) := by
  induction bs generalizing m a with
  | nil => exact absurd rfl hn
  | cons b bs ih =>
    simp only [List.length_cons] at h
    by_cases ha : a < Config.memSize
    · have h0 : memWrite m a b = .ok (m.write a b) := memWrite_eq_ok.mpr ⟨ha, rfl⟩
      have hm : max (a + 1) Config.memSize = max a Config.memSize := by omega
      have hne : bs ≠ [] := by rintro rfl; simp only [List.length_nil] at h; omega
      simp [writeBlock, h0, ih _ (a + 1) hne (by omega), hm]
    · have h0 : memWrite m a b = .error a := memWrite_eq_error.mpr ⟨by omega, rfl⟩
      have hm : max a Config.memSize = a := by omega
      simp [writeBlock, h0, hm]

/-- A block write that succeeds keeps the canonical form. -/
theorem writeBlock_wf {m m' : Memory} {a : Nat} {bs : List Byte} (h : writeBlock m a bs = .ok m') (hw : m.wf = true) :
    m'.wf = true := by
  induction bs generalizing m a with
  | nil => cases h; exact hw
  | cons b bs ih =>
    simp only [writeBlock] at h
    cases h0 : memWrite m a b with
    | error e => simp [h0] at h
    | ok m1 =>
      obtain ⟨ha, rfl⟩ := memWrite_eq_ok.mp h0
      exact ih (by simpa [h0] using h) (Memory.wf_write hw ha b)

end Sys2Proof.Machine
end

