-- ==== Sys2Proof/Laws/Load.lean ====
section
/-! SUPPORT. The start contents and the initial load: what they can do, each said once. -/

namespace Sys2Proof.Machine

/-- Past the font the start contents are zero, whatever FONT is (rule R78). -/
theorem Memory.startContents_of_ge (font : FontTable) {a : Nat} (h : 80 ≤ a) : Memory.startContents font a = 0 := by
  simp [Memory.startContents, Nat.not_lt.mpr h]

/-- In the font they are its bytes (rule R78). -/
theorem Memory.startContents_of_lt (font : FontTable) {a : Nat} (h : a < 80) : Memory.startContents font a = font[a] := by
  simp [Memory.startContents, h]

/-- A ROM that fits loads: memory is canonical and holds the ROM from PROGRAM_BASE, and the start contents under FONT elsewhere
(rules R78, R301). -/
theorem initialLoad_ok (font : FontTable) (rom : List Byte) (h : rom.length ≤ Config.maxRom) :
    ∃ m, initialLoad font rom = .ok m ∧ m.wf = true ∧
      ∀ a, m.read a = if Config.programBase ≤ a ∧ a < Config.programBase + rom.length
        then rom.getD (a - Config.programBase) 0 else Memory.startContents font a := by
  have hl : font.toList.length = 80 := by simp
  obtain ⟨m1, h1, hwf1, hr1⟩ := writeBlock_ok State.reset.mem Config.fontBase font.toList (by rw [hl]; decide)
  obtain ⟨m2, h2, hwf2, hr2⟩ := writeBlock_ok m1 Config.programBase rom (by
    simp only [Config.maxRom, Config.memSize, Config.programBase] at *; omega)
  refine ⟨m2, by simp [initialLoad, h1, h2, Nat.not_lt.mpr h], hwf2 (hwf1 Memory.wf_nil), fun a => ?_⟩
  rw [hr2 a]
  congr 1
  rw [hr1 a, hl]
  by_cases ha : a < 80
  · rw [if_pos ⟨Nat.zero_le a, by omega⟩, Memory.startContents_of_lt font ha]
    simp [ha]
  · rw [if_neg (by simp only [Config.fontBase]; omega), Memory.startContents_of_ge font (by omega)]
    exact Memory.startContents_of_ge Machine.font (by omega)

/-- A ROM that does not fit is out of bounds at 4096 (rule R295). -/
theorem initialLoad_error (font : FontTable) (rom : List Byte) (h : Config.maxRom < rom.length) :
    initialLoad font rom = .error Config.memSize := by
  obtain ⟨m, h1, -⟩ := writeBlock_ok State.reset.mem Config.fontBase font.toList (by
    rw [show font.toList.length = 80 by simp]; decide)
  simp [initialLoad, h1, h]

end Sys2Proof.Machine
end

