-- ==== Sys2Proof/Laws/Ops.lean ====
section
/-! SUPPORT. The shared operations on registers, the stack, keys and accesses: one lemma for each that says all it can do. -/

namespace Sys2Proof.Machine

/-! ### Blocks of registers (rules R260, R262, R263) -/

@[simp] theorem State.length_regsUpTo (s : State) (x : Reg) : (s.regsUpTo x).length = x.val + 1 := by
  simp [State.regsUpTo]

/-- Byte k of a block store is Vk. -/
theorem State.getD_regsUpTo (s : State) (x : Reg) (k : Nat) (hk : k ≤ x.val) :
    (s.regsUpTo x).getD k 0 = s.getV ⟨k, by omega⟩ := by
  have : k < x.val + 1 := by omega
  simp [State.regsUpTo, State.getV, this]

/-- Byte k of the list goes to register `from + k`, and every other register is as before. -/
theorem getElem_writeRegs (v : Vector Byte 16) (k : Nat) (bs : List Byte) (r : Reg) :
    (writeRegs v k bs)[r] = if k ≤ r.val ∧ r.val < k + bs.length then bs.getD (r.val - k) 0 else v[r] := by
  induction bs generalizing v k with
  | nil => rw [if_neg (by simp)]; rfl
  | cons b bs ih =>
    rw [writeRegs, ih]
    simp only [List.length_cons]
    by_cases hr : r.val = k
    · rw [if_neg (by omega), if_pos (by omega)]
      simp [hr]
    · have hk : ¬ k = r.val := fun e => hr e.symm
      by_cases hin : k + 1 ≤ r.val ∧ r.val < k + 1 + bs.length
      · rw [if_pos hin, if_pos (by omega)]
        have : r.val - k = (r.val - (k + 1)) + 1 := by omega
        rw [this]; simp
      · rw [if_neg hin, if_neg (by omega)]
        simp [hk]

/-- Byte k of a block load goes to Vk, and every register past the block is as before. -/
theorem State.getV_loadRegs (s : State) (bs : List Byte) (r : Reg) :
    (s.loadRegs bs).getV r = if r.val < bs.length then bs.getD r.val 0 else s.getV r := by
  simp only [State.getV, State.loadRegs_v, getElem_writeRegs]
  simp

/-- The registers of two states that agree on each are the same. -/
theorem regs_ext {s t : State} (h : ∀ r, t.getV r = s.getV r) : t.v = s.v := by
  apply Vector.ext; intro k hk
  exact h ⟨k, hk⟩

/-! ### Stack (rules R44, R45) -/

theorem pushWithin_none (stack : List Word) (w : Word) : pushWithin none stack w = some (w :: stack) := rfl

theorem pushWithin_some (k : Nat) (stack : List Word) (w : Word) :
    pushWithin (some k) stack w = if k ≤ stack.length then none else some (w :: stack) := rfl

/-- What a push can do, whatever the bound: it refuses, or the entry is on top. -/
theorem pushWithin_eq_some {depth : Option Nat} {stack l : List Word} {w : Word}
    (h : pushWithin depth stack w = some l) : l = w :: stack := by
  unfold pushWithin at h
  split at h
  · exact (Option.some.inj h).symm
  · split at h
    · cases h
    · exact (Option.some.inj h).symm

/-! ### Keys (rules R230, R234) -/

theorem keyIndex_of_lt {b : Byte} (h : b.toNat < 16) : keyIndex b = some ⟨b.toNat, h⟩ := by simp [keyIndex, h]

theorem keyIndex_of_ge {b : Byte} (h : 16 ≤ b.toNat) : keyIndex b = none := by
  simp [keyIndex]; omega

theorem mem_pressedKeys {k : Keypad} {j : Key} : j ∈ pressedKeys k ↔ k[j] = true := by
  simp [pressedKeys, List.mem_filter]

theorem pressedKeys_eq_nil {k : Keypad} : pressedKeys k = [] ↔ ∀ j : Key, k[j] = false := by
  simp [pressedKeys, List.filter_eq_nil_iff]

/-- The captured key is one of the pressed keys, whatever the choice. -/
theorem chooseKey_mem (first : Key) (rest : List Key) (c : Nat) : chooseKey first rest c ∈ first :: rest := by
  unfold chooseKey
  split
  · simp
  · next b bs =>
    have hlt : c % (first :: b :: bs).length < (first :: b :: bs).length := Nat.mod_lt _ (by simp)
    rw [List.getD_eq_getElem _ _ hlt]
    exact List.getElem_mem hlt

/-! ### Accesses that may be out of bounds (rule R72) -/

@[simp] theorem orOutOfBounds_ok {α : Type} (s : State) (i : Instr) (a : α) (go : α → State) :
    orOutOfBounds s i (.ok a) go = .next (go a) := rfl

@[simp] theorem orOutOfBounds_error {α : Type} (s : State) (i : Instr) (e : Nat) (go : α → State) :
    orOutOfBounds s i (.error e) go = .fault (.outOfBounds s.fetchAddr (encode i) e) := rfl

/-- A checked access completes exactly when the access succeeds. -/
theorem orOutOfBounds_eq_next {α : Type} {s t : State} {i : Instr} {e : Except Nat α} {go : α → State} :
    orOutOfBounds s i e go = .next t ↔ ∃ a, e = .ok a ∧ go a = t := by
  cases e <;> simp

/-- A checked access faults only with `OutOfBounds` of the instruction under way. -/
theorem orOutOfBounds_eq_fault {α : Type} {s : State} {i : Instr} {e : Except Nat α} {go : α → State} {f : Fault}
    (h : orOutOfBounds s i e go = .fault f) : ∃ a, e = .error a ∧ f = .outOfBounds s.fetchAddr (encode i) a := by
  cases e with
  | ok a => cases h
  | error a => exact ⟨a, rfl, by simpa using h.symm⟩

/-! ### Timers (rule R49) -/

theorem countDown_toNat (t : Byte) : (countDown t).toNat = t.toNat - 1 := by
  unfold countDown
  split
  · next h => subst h; rfl
  · next h =>
    have : t.toNat ≠ 0 := fun e => h (BitVec.eq_of_toNat_eq e)
    bv_omega

end Sys2Proof.Machine
end

