-- ==== Sys2Proof/Laws/PerInstr.lean ====
section
/-! SUPPORT. The family EncodedInRow: every instruction's word is of the row of the opcode map that bears its mnemonic (rule R110),
one lemma per constructor. -/

namespace Sys2Proof.Laws

/-- The opcode map has a row with the instruction's mnemonic that covers the instruction's word (rule R110). -/
def EncodedInRow.Statement (i : Instr) : Prop :=
  ∃ r ∈ opcodeMap, r.mnemonic = i.mnemonic ∧ r.covers (encode i) = true

theorem inRow {i : Instr} (r : OpcodeRow) (hr : r ∈ opcodeMap) (hm : r.mnemonic = i.mnemonic)
    (hw : encode i &&& r.mask = r.pattern) : EncodedInRow.Statement i :=
  ⟨r, hr, hm, by simp [OpcodeRow.covers, hw]⟩

theorem EncodedInRow.cls : EncodedInRow.Statement (.cls) := 
  inRow ⟨"CLS", 0x00E0, 0xFFFF⟩ (by decide) rfl (by decide)

theorem EncodedInRow.ret : EncodedInRow.Statement (.ret) := 
  inRow ⟨"RET", 0x00EE, 0xFFFF⟩ (by decide) rfl (by decide)

theorem EncodedInRow.jp (nnn : Addr12) : EncodedInRow.Statement (.jp nnn) := 
  inRow ⟨"JP_nnn", 0x1000, 0xF000⟩ (by decide) rfl (packA_and_mask (by decide) _)

theorem EncodedInRow.call (nnn : Addr12) : EncodedInRow.Statement (.call nnn) := 
  inRow ⟨"CALL_nnn", 0x2000, 0xF000⟩ (by decide) rfl (packA_and_mask (by decide) _)

theorem EncodedInRow.seImm (x : Reg) (nn : Byte) : EncodedInRow.Statement (.seImm x nn) := 
  inRow ⟨"SE_Vx__nn", 0x3000, 0xF000⟩ (by decide) rfl (packXI_and_mask (by decide) _ _)

theorem EncodedInRow.sneImm (x : Reg) (nn : Byte) : EncodedInRow.Statement (.sneImm x nn) := 
  inRow ⟨"SNE_Vx__nn", 0x4000, 0xF000⟩ (by decide) rfl (packXI_and_mask (by decide) _ _)

theorem EncodedInRow.seReg (x y : Reg) : EncodedInRow.Statement (.seReg x y) := 
  inRow ⟨"SE_Vx__Vy", 0x5000, 0xF00F⟩ (by decide) rfl (packXY_and_mask (by decide) _ _ _)

theorem EncodedInRow.ldImm (x : Reg) (nn : Byte) : EncodedInRow.Statement (.ldImm x nn) := 
  inRow ⟨"LD_Vx__nn", 0x6000, 0xF000⟩ (by decide) rfl (packXI_and_mask (by decide) _ _)

theorem EncodedInRow.addImm (x : Reg) (nn : Byte) : EncodedInRow.Statement (.addImm x nn) := 
  inRow ⟨"ADD_Vx__nn", 0x7000, 0xF000⟩ (by decide) rfl (packXI_and_mask (by decide) _ _)

theorem EncodedInRow.ldReg (x y : Reg) : EncodedInRow.Statement (.ldReg x y) := 
  inRow ⟨"LD_Vx__Vy", 0x8000, 0xF00F⟩ (by decide) rfl (packXY_and_mask (by decide) _ _ _)

theorem EncodedInRow.orReg (x y : Reg) : EncodedInRow.Statement (.orReg x y) := 
  inRow ⟨"OR_Vx__Vy", 0x8001, 0xF00F⟩ (by decide) rfl (packXY_and_mask (by decide) _ _ _)

theorem EncodedInRow.andReg (x y : Reg) : EncodedInRow.Statement (.andReg x y) := 
  inRow ⟨"AND_Vx__Vy", 0x8002, 0xF00F⟩ (by decide) rfl (packXY_and_mask (by decide) _ _ _)

theorem EncodedInRow.xorReg (x y : Reg) : EncodedInRow.Statement (.xorReg x y) := 
  inRow ⟨"XOR_Vx__Vy", 0x8003, 0xF00F⟩ (by decide) rfl (packXY_and_mask (by decide) _ _ _)

theorem EncodedInRow.addReg (x y : Reg) : EncodedInRow.Statement (.addReg x y) := 
  inRow ⟨"ADD_Vx__Vy", 0x8004, 0xF00F⟩ (by decide) rfl (packXY_and_mask (by decide) _ _ _)

theorem EncodedInRow.subReg (x y : Reg) : EncodedInRow.Statement (.subReg x y) := 
  inRow ⟨"SUB_Vx__Vy", 0x8005, 0xF00F⟩ (by decide) rfl (packXY_and_mask (by decide) _ _ _)

theorem EncodedInRow.shr (x y : Reg) : EncodedInRow.Statement (.shr x y) := 
  inRow ⟨"SHR_Vx____Vy", 0x8006, 0xF00F⟩ (by decide) rfl (packXY_and_mask (by decide) _ _ _)

theorem EncodedInRow.subnReg (x y : Reg) : EncodedInRow.Statement (.subnReg x y) := 
  inRow ⟨"SUBN_Vx__Vy", 0x8007, 0xF00F⟩ (by decide) rfl (packXY_and_mask (by decide) _ _ _)

theorem EncodedInRow.shl (x y : Reg) : EncodedInRow.Statement (.shl x y) := 
  inRow ⟨"SHL_Vx____Vy", 0x800E, 0xF00F⟩ (by decide) rfl (packXY_and_mask (by decide) _ _ _)

theorem EncodedInRow.sneReg (x y : Reg) : EncodedInRow.Statement (.sneReg x y) := 
  inRow ⟨"SNE_Vx__Vy", 0x9000, 0xF00F⟩ (by decide) rfl (packXY_and_mask (by decide) _ _ _)

theorem EncodedInRow.ldI (nnn : Addr12) : EncodedInRow.Statement (.ldI nnn) := 
  inRow ⟨"LD_I__nnn", 0xA000, 0xF000⟩ (by decide) rfl (packA_and_mask (by decide) _)

theorem EncodedInRow.jpV0 (nnn : Addr12) : EncodedInRow.Statement (.jpV0 nnn) := 
  inRow ⟨"JP_V0__nnn", 0xB000, 0xF000⟩ (by decide) rfl (packA_and_mask (by decide) _)

theorem EncodedInRow.rnd (x : Reg) (nn : Byte) : EncodedInRow.Statement (.rnd x nn) := 
  inRow ⟨"RND_Vx__nn", 0xC000, 0xF000⟩ (by decide) rfl (packXI_and_mask (by decide) _ _)

theorem EncodedInRow.drw (x y : Reg) (n : Nibble) : EncodedInRow.Statement (.drw x y n) := 
  inRow ⟨"DRW_Vx__Vy__n", 0xD000, 0xF000⟩ (by decide) rfl (packXYN_and_mask (by decide) _ _ _)

theorem EncodedInRow.skp (x : Reg) : EncodedInRow.Statement (.skp x) := 
  inRow ⟨"SKP_Vx", 0xE09E, 0xF0FF⟩ (by decide) rfl (packXK_and_mask (by decide) _ _)

theorem EncodedInRow.sknp (x : Reg) : EncodedInRow.Statement (.sknp x) := 
  inRow ⟨"SKNP_Vx", 0xE0A1, 0xF0FF⟩ (by decide) rfl (packXK_and_mask (by decide) _ _)

theorem EncodedInRow.ldVxDt (x : Reg) : EncodedInRow.Statement (.ldVxDt x) := 
  inRow ⟨"LD_Vx__DT", 0xF007, 0xF0FF⟩ (by decide) rfl (packXK_and_mask (by decide) _ _)

theorem EncodedInRow.ldVxK (x : Reg) : EncodedInRow.Statement (.ldVxK x) := 
  inRow ⟨"LD_Vx__K", 0xF00A, 0xF0FF⟩ (by decide) rfl (packXK_and_mask (by decide) _ _)

theorem EncodedInRow.ldDtVx (x : Reg) : EncodedInRow.Statement (.ldDtVx x) := 
  inRow ⟨"LD_DT__Vx", 0xF015, 0xF0FF⟩ (by decide) rfl (packXK_and_mask (by decide) _ _)

theorem EncodedInRow.ldStVx (x : Reg) : EncodedInRow.Statement (.ldStVx x) := 
  inRow ⟨"LD_ST__Vx", 0xF018, 0xF0FF⟩ (by decide) rfl (packXK_and_mask (by decide) _ _)

theorem EncodedInRow.addI (x : Reg) : EncodedInRow.Statement (.addI x) := 
  inRow ⟨"ADD_I__Vx", 0xF01E, 0xF0FF⟩ (by decide) rfl (packXK_and_mask (by decide) _ _)

theorem EncodedInRow.ldF (x : Reg) : EncodedInRow.Statement (.ldF x) := 
  inRow ⟨"LD_F__Vx", 0xF029, 0xF0FF⟩ (by decide) rfl (packXK_and_mask (by decide) _ _)

theorem EncodedInRow.ldB (x : Reg) : EncodedInRow.Statement (.ldB x) := 
  inRow ⟨"LD_B__Vx", 0xF033, 0xF0FF⟩ (by decide) rfl (packXK_and_mask (by decide) _ _)

theorem EncodedInRow.ldMemVx (x : Reg) : EncodedInRow.Statement (.ldMemVx x) := 
  inRow ⟨"LD__I___Vx", 0xF055, 0xF0FF⟩ (by decide) rfl (packXK_and_mask (by decide) _ _)

theorem EncodedInRow.ldVxMem (x : Reg) : EncodedInRow.Statement (.ldVxMem x) := 
  inRow ⟨"LD_Vx___I", 0xF065, 0xF0FF⟩ (by decide) rfl (packXK_and_mask (by decide) _ _)

end Sys2Proof.Laws
end

