-- ==== Sys2Proof/Laws/Step.lean ====
section
/-! SUPPORT. The fetch, the turns and the step: what each can do, said once, and that a placed word is what the next step runs. -/

namespace Sys2Proof.Machine

/-- Inside the address space the fetch reads the opcode and advances PC by 2 (rules R130, R131). -/
theorem State.fetch_ok (s : State) (h : s.pc.toNat + 1 < Config.memSize) :
    s.fetch = .ok (s.opcodeAtPc, s.setPc (s.pc + 2)) := by
  have h0 : memRead s.mem s.pc.toNat = .ok (s.mem.read s.pc.toNat) := memRead_eq_ok.mpr ⟨by omega, rfl⟩
  have h1 : memRead s.mem (s.pc.toNat + 1) = .ok (s.mem.read (s.pc.toNat + 1)) := memRead_eq_ok.mpr ⟨h, rfl⟩
  simp [State.fetch, h0, h1, State.opcodeAtPc]

/-- Past it the fetch reports the first byte address outside (rule R132). -/
theorem State.fetch_error (s : State) (h : Config.memSize ≤ s.pc.toNat + 1) :
    s.fetch = .error (.fetchOutOfBounds s.pc (max s.pc.toNat Config.memSize)) := by
  by_cases hp : s.pc.toNat < Config.memSize
  · have h0 : memRead s.mem s.pc.toNat = .ok (s.mem.read s.pc.toNat) := memRead_eq_ok.mpr ⟨hp, rfl⟩
    have h1 : memRead s.mem (s.pc.toNat + 1) = .error (s.pc.toNat + 1) := memRead_eq_error.mpr ⟨h, rfl⟩
    have hm : max s.pc.toNat Config.memSize = s.pc.toNat + 1 := by omega
    simp [State.fetch, h0, h1, hm]
  · have h0 : memRead s.mem s.pc.toNat = .error s.pc.toNat := memRead_eq_error.mpr ⟨by omega, rfl⟩
    have hm : max s.pc.toNat Config.memSize = s.pc.toNat := by omega
    simp [State.fetch, h0, hm]

/-- What an instruction step that answers a next state did: the fetch was in bounds, the opcode decoded, and exec of the
instruction gave that state. -/
theorem instructionStep_eq_next {s t : State} (h : instructionStep s = .next t) :
    s.pc.toNat + 1 < Config.memSize ∧ ∃ i, decode s.opcodeAtPc = .ok i ∧ exec i (s.setPc (s.pc + 2)) = .next t := by
  by_cases hp : s.pc.toNat + 1 < Config.memSize
  · refine ⟨hp, ?_⟩
    simp only [instructionStep, s.fetch_ok hp] at h
    cases hd : decode s.opcodeAtPc with
    | error e => simp [hd, raise] at h
    | ok i => exact ⟨i, rfl, by simpa [hd] using h⟩
  · simp [instructionStep, s.fetch_error (by omega), raise] at h

/-- Taking a turn changes nothing but the script and the draw counter. -/
theorem State.takeTurn_snd (s : State) :
    s.takeTurn.2 = { s with script := s.takeTurn.2.script, draws := s.takeTurn.2.draws } := by
  unfold State.takeTurn
  split <;> rfl

/-- A turn that the script settles is taken off it. -/
theorem State.takeTurn_cons {s : State} {t : Turn} {rest : List Turn} (h : s.script = t :: rest) :
    s.takeTurn = (t, { s with script := rest }) := by
  simp [State.takeTurn, h]

/-- Past the script's end the turn is a free value. -/
theorem State.takeTurn_nil {s : State} (h : s.script = []) : s.takeTurn = (Config.turn s.draws, s.drawn) := by
  simp [State.takeTurn, h]

/-- What a step that answers a next state did: the core was running, and its turn was a tick or an instruction step. -/
theorem step_eq_next {s t : State} (h : step s = .next t) :
    s.run = .running ∧
      (s.takeTurn.1 = .tick ∧ t = s.takeTurn.2.tick ∨
        ∃ k, s.takeTurn.1 = .instruction k ∧ instructionStep (s.takeTurn.2.refreshKeys k) = .next t) := by
  cases hr : s.run with
  | halted f => simp [step, hr, raise] at h
  | running =>
    refine ⟨rfl, ?_⟩
    rcases ht : s.takeTurn with ⟨turn, s'⟩
    cases turn with
    | tick => exact .inl ⟨rfl, by simpa [step, hr, ht] using h.symm⟩
    | instruction k => exact .inr ⟨k, rfl, by simpa [step, hr, ht] using h⟩

/-- A run whose first step answers a next state is the run from there (any machine of the host's interface). -/
theorem run_succ_of_next (M : Host.Core) (k : Nat) {s t : M.State} (h : M.step s = .next t) :
    M.run (k + 1) s = M.run k t := by
  simp [Host.Core.run, h]

/-- The same for this core. -/
theorem core_run_succ (n : Nat) {s t : State} (h : step s = .next t) :
    Sys2Proof.core.run (n + 1) s = Sys2Proof.core.run n t :=
  run_succ_of_next Sys2Proof.core n h

/-! ### Placing a word (log entry 10) -/

theorem State.fetchable_pc (s : State) : s.fetchable.pc.toNat + 1 < Config.memSize := by
  unfold State.fetchable
  split
  · assumption
  · change 0x200 + 1 < Config.memSize; decide

theorem State.opcodeAtPc_storeWord (s : State) (op : Opcode) : (s.storeWord op).opcodeAtPc = op := by
  simp [State.storeWord, State.opcodeAtPc, Memory.read_write, joinBytes_high_low]

/-- The step after placing a word is exec of the instruction it decodes to, PC advanced, with the keypad as it stands; a word
that decodes to nothing is the unknown-opcode fault. -/
theorem step_withFetchWord (s : State) (nbits w : Nat) :
    step (s.withFetchWord nbits w) =
      match decode (tableWord nbits w) with
      | .ok i => exec i { (s.fetchable.storeWord (tableWord nbits w)).setPc (s.fetchable.pc + 2) with run := .running }
      | .error _ => .fault (.unknownOpcode s.fetchable.pc (tableWord nbits w)) := by
  have hpc := s.fetchable_pc
  have hop := s.fetchable.opcodeAtPc_storeWord (tableWord nbits w)
  have hf := State.fetch_ok
    { s.fetchable.storeWord (tableWord nbits w) with run := .running } hpc
  have hstep : step (s.withFetchWord nbits w) =
      instructionStep { s.fetchable.storeWord (tableWord nbits w) with run := .running } := rfl
  rw [hstep, instructionStep, hf]
  change (match decode (s.fetchable.storeWord (tableWord nbits w)).opcodeAtPc with
    | .error _ => raise _
    | .ok i => exec i _) = _
  rw [hop]
  cases hd : decode (tableWord nbits w) <;> simp [raise, State.storeWord]
  · exact hop
  · rfl

end Sys2Proof.Machine
end

