-- ==== Sys2Proof/Laws/Run.lean ====
section
/-! SUPPORT. The end of a run: when a state is at a self-jump, and the ends before a step, each said once. -/

namespace Sys2Proof.Machine

/-- At a self-jump: the core is running, PC can be fetched from, and the word there decodes to a jump to PC (rule R316). -/
theorem State.atSelfJump_iff (s : State) :
    s.atSelfJump = true ↔ s.run = .running ∧ s.pc.toNat + 1 < Config.memSize ∧
      decode s.opcodeAtPc = .ok (.jp (s.pc.setWidth 12)) := by
  cases hr : s.run with
  | halted f => simp [State.atSelfJump, hr]
  | running =>
    by_cases hp : s.pc.toNat + 1 < Config.memSize
    · simp [State.atSelfJump, hr, s.fetch_ok hp, hp]
    · simp [State.atSelfJump, hr, s.fetch_error (by omega), hp]

theorem State.runEnd?_of_halted {s : State} {f : Fault} (h : s.run = .halted f) : s.runEnd? = some (.fatal f) := by
  simp [State.runEnd?, h]

theorem State.runEnd?_of_selfJump {s : State} (h : s.atSelfJump = true) : s.runEnd? = some (.selfJump s) := by
  simp [State.runEnd?, ((State.atSelfJump_iff s).mp h).1, h]

/-- Before a step a run is at an end unless the core is running and not at a self-jump. -/
theorem State.runEnd?_eq_none {s : State} : s.runEnd? = none ↔ s.run = .running ∧ s.atSelfJump = false := by
  cases hr : s.run <;> simp [State.runEnd?, hr]

end Sys2Proof.Machine
end

