-- ==== Sys2Proof/Tests/Slice0.lean ====
section
/-! SUPPORT. Small tests. Expected results come from spec/95_test_vectors.md (the vector's number stands in each docstring) or from
the encoding tables of spec/30_encoding.md; the second half shows, for every obligation with hypotheses, a state and operands that
meet them. -/

namespace Sys2Proof.Tests

open Sys2Proof Sys2Proof.Machine

/-! ### Helpers -/

/-- The state after the first step of s with this word placed at PC. -/
def after (s : State) (w : Nat) : Option State :=
  match step (s.withFetchWord 16 w) with
  | .next t => some t
  | .fault _ => none
  | .refused _ => none

/-- The fault of that step. -/
def faultOf (s : State) (w : Nat) : Option Fault :=
  match step (s.withFetchWord 16 w) with
  | .next _ => none
  | .fault f => some f
  | .refused _ => none

/-- The state after reset. -/
def s0 : State := State.reset

/-- The state after reset with these two bytes at 0x200 (what State.load gives for such a ROM, shown by test_load_layout and
obligation LoadedStartState). -/
def rom2 (hi lo : Byte) : State := s0.storeWord (joinBytes hi lo)

/-- A keypad with these keys down. -/
def keysDown (ks : List Key) : Keypad := Vector.ofFn fun k => decide (k ∈ ks)

/-- The state with an instruction turn next, the keys down. -/
def turnNow (s : State) (ks : List Key) : State := { s with script := [.instruction (keysDown ks)] }

/-! ### Decoding: the words of rule R110's map, written out from the spec's formats (rules R101, R102) -/

/-- Rule R110, row 1, vector E1. -/
theorem test_decode_cls : decode 0x00E0 = .ok (.cls) ∧ encode (.cls) = 0x00E0 := by decide

/-- Rule R110, row 2, vector E2. -/
theorem test_decode_ret : decode 0x00EE = .ok (.ret) ∧ encode (.ret) = 0x00EE := by decide

/-- Rule R110, row 3. -/
theorem test_decode_jp : decode 0x1ABC = .ok (.jp 0xABC) ∧ encode (.jp 0xABC) = 0x1ABC := by decide

/-- Rule R110, row 4. -/
theorem test_decode_call : decode 0x2FE1 = .ok (.call 0xFE1) ∧ encode (.call 0xFE1) = 0x2FE1 := by decide

/-- Rule R110, row 5. -/
theorem test_decode_seImm : decode 0x3C5A = .ok (.seImm 0xC 0x5A) ∧ encode (.seImm 0xC 0x5A) = 0x3C5A := by decide

/-- Rule R110, row 6. -/
theorem test_decode_sneImm : decode 0x4207 = .ok (.sneImm 2 0x07) ∧ encode (.sneImm 2 0x07) = 0x4207 := by decide

/-- Rule R110, row 7. -/
theorem test_decode_seReg : decode 0x5AB0 = .ok (.seReg 0xA 0xB) ∧ encode (.seReg 0xA 0xB) = 0x5AB0 := by decide

/-- Rule R110, row 8, rule R112's example. -/
theorem test_decode_ldImm : decode 0x6A3C = .ok (.ldImm 0xA 0x3C) ∧ encode (.ldImm 0xA 0x3C) = 0x6A3C := by decide

/-- Rule R110, row 9. -/
theorem test_decode_addImm : decode 0x7320 = .ok (.addImm 3 0x20) ∧ encode (.addImm 3 0x20) = 0x7320 := by decide

/-- Rule R110, row 10. -/
theorem test_decode_ldReg : decode 0x8120 = .ok (.ldReg 1 2) ∧ encode (.ldReg 1 2) = 0x8120 := by decide

/-- Rule R110, row 11. -/
theorem test_decode_orReg : decode 0x8341 = .ok (.orReg 3 4) ∧ encode (.orReg 3 4) = 0x8341 := by decide

/-- Rule R110, row 12. -/
theorem test_decode_andReg : decode 0x8562 = .ok (.andReg 5 6) ∧ encode (.andReg 5 6) = 0x8562 := by decide

/-- Rule R110, row 13. -/
theorem test_decode_xorReg : decode 0x8783 = .ok (.xorReg 7 8) ∧ encode (.xorReg 7 8) = 0x8783 := by decide

/-- Rule R110, row 14. -/
theorem test_decode_addReg : decode 0x89A4 = .ok (.addReg 9 0xA) ∧ encode (.addReg 9 0xA) = 0x89A4 := by decide

/-- Rule R110, row 15. -/
theorem test_decode_subReg : decode 0x8BC5 = .ok (.subReg 0xB 0xC) ∧ encode (.subReg 0xB 0xC) = 0x8BC5 := by decide

/-- Rule R110, row 16. -/
theorem test_decode_shr : decode 0x8256 = .ok (.shr 2 5) ∧ encode (.shr 2 5) = 0x8256 := by decide

/-- Rule R110, row 17. -/
theorem test_decode_subnReg : decode 0x8107 = .ok (.subnReg 1 0) ∧ encode (.subnReg 1 0) = 0x8107 := by decide

/-- Rule R110, row 18. -/
theorem test_decode_shl : decode 0x820E = .ok (.shl 2 0) ∧ encode (.shl 2 0) = 0x820E := by decide

/-- Rule R110, row 19. -/
theorem test_decode_sneReg : decode 0x9DE0 = .ok (.sneReg 0xD 0xE) ∧ encode (.sneReg 0xD 0xE) = 0x9DE0 := by decide

/-- Rule R110, row 20. -/
theorem test_decode_ldI : decode 0xA300 = .ok (.ldI 0x300) ∧ encode (.ldI 0x300) = 0xA300 := by decide

/-- Rule R110, row 21, vector E11. -/
theorem test_decode_jpV0 : decode 0xB123 = .ok (.jpV0 0x123) ∧ encode (.jpV0 0x123) = 0xB123 := by decide

/-- Rule R110, row 22. -/
theorem test_decode_rnd : decode 0xC50F = .ok (.rnd 5 0x0F) ∧ encode (.rnd 5 0x0F) = 0xC50F := by decide

/-- Rule R110, row 23. -/
theorem test_decode_drw : decode 0xD125 = .ok (.drw 1 2 5) ∧ encode (.drw 1 2 5) = 0xD125 := by decide

/-- Rule R110, row 24. -/
theorem test_decode_skp : decode 0xE39E = .ok (.skp 3) ∧ encode (.skp 3) = 0xE39E := by decide

/-- Rule R110, row 25. -/
theorem test_decode_sknp : decode 0xE4A1 = .ok (.sknp 4) ∧ encode (.sknp 4) = 0xE4A1 := by decide

/-- Rule R110, row 26. -/
theorem test_decode_ldVxDt : decode 0xF507 = .ok (.ldVxDt 5) ∧ encode (.ldVxDt 5) = 0xF507 := by decide

/-- Rule R110, row 27. -/
theorem test_decode_ldVxK : decode 0xF30A = .ok (.ldVxK 3) ∧ encode (.ldVxK 3) = 0xF30A := by decide

/-- Rule R110, row 28. -/
theorem test_decode_ldDtVx : decode 0xF515 = .ok (.ldDtVx 5) ∧ encode (.ldDtVx 5) = 0xF515 := by decide

/-- Rule R110, row 29. -/
theorem test_decode_ldStVx : decode 0xF618 = .ok (.ldStVx 6) ∧ encode (.ldStVx 6) = 0xF618 := by decide

/-- Rule R110, row 30. -/
theorem test_decode_addI : decode 0xF21E = .ok (.addI 2) ∧ encode (.addI 2) = 0xF21E := by decide

/-- Rule R110, row 31. -/
theorem test_decode_ldF : decode 0xF029 = .ok (.ldF 0) ∧ encode (.ldF 0) = 0xF029 := by decide

/-- Rule R110, row 32. -/
theorem test_decode_ldB : decode 0xF733 = .ok (.ldB 7) ∧ encode (.ldB 7) = 0xF733 := by decide

/-- Rule R110, row 33. -/
theorem test_decode_ldMemVx : decode 0xF155 = .ok (.ldMemVx 1) ∧ encode (.ldMemVx 1) = 0xF155 := by decide

/-- Rule R110, row 34. -/
theorem test_decode_ldVxMem : decode 0xFF65 = .ok (.ldVxMem 0xF) ∧ encode (.ldVxMem 0xF) = 0xFF65 := by decide

/-- Rule R112's example: the bytes of 0x6A3C, high byte first, and what follows them. -/
theorem test_decode_bytes : decodeBytes [0x6A, 0x3C, 0x00] = .ok (.ldImm 0xA 0x3C, [0x00]) := by decide

/-- One byte is no opcode (rule R100). -/
theorem test_decode_truncated : decodeBytes [0x6A] = .error .truncated := by decide

/-- The table numbers the one word's bits as the word does. -/
theorem test_decode_table_word : decodeTableWord 16 0xD125 = some (.drw 1 2 5) ∧ decodeTableWord 16 0x5121 = none := by decide

/-! ### WellFormed: an ill-formed word of each class of rule R107 is refused by the check and by the decoder -/

/-- Vector E3. -/
theorem test_ill_formed_family_0 : 
    wellFormedWord 0x0000 = false ∧
    wellFormedWord 0x0123 = false ∧
    wellFormedWord 0x00E1 = false ∧
    wellFormedWord 0x00FF = false := by decide

/-- Vector E3. -/
theorem test_decode_refuses_family_0 : 
    decode 0x0000 = .error (.unknown 0x0000) ∧
    decode 0x0123 = .error (.unknown 0x0123) ∧
    decode 0x00E1 = .error (.unknown 0x00E1) ∧
    decode 0x00FF = .error (.unknown 0x00FF) := by decide

/-- Vector E4. -/
theorem test_ill_formed_family_5 : 
    wellFormedWord 0x5121 = false := by decide

/-- Vector E4. -/
theorem test_decode_refuses_family_5 : 
    decode 0x5121 = .error (.unknown 0x5121) := by decide

/-- Vector E5. -/
theorem test_ill_formed_family_9 : 
    wellFormedWord 0x9123 = false := by decide

/-- Vector E5. -/
theorem test_decode_refuses_family_9 : 
    decode 0x9123 = .error (.unknown 0x9123) := by decide

/-- Vector E6. -/
theorem test_ill_formed_family_8 : 
    wellFormedWord 0x8008 = false ∧
    wellFormedWord 0x800D = false ∧
    wellFormedWord 0x800F = false := by decide

/-- Vector E6. -/
theorem test_decode_refuses_family_8 : 
    decode 0x8008 = .error (.unknown 0x8008) ∧
    decode 0x800D = .error (.unknown 0x800D) ∧
    decode 0x800F = .error (.unknown 0x800F) := by decide

/-- Vector E8. -/
theorem test_ill_formed_family_E : 
    wellFormedWord 0xE09F = false ∧
    wellFormedWord 0xE0A0 = false ∧
    wellFormedWord 0xE000 = false := by decide

/-- Vector E8. -/
theorem test_decode_refuses_family_E : 
    decode 0xE09F = .error (.unknown 0xE09F) ∧
    decode 0xE0A0 = .error (.unknown 0xE0A0) ∧
    decode 0xE000 = .error (.unknown 0xE000) := by decide

/-- Vector E9. -/
theorem test_ill_formed_family_F : 
    wellFormedWord 0xF000 = false ∧
    wellFormedWord 0xF01F = false ∧
    wellFormedWord 0xF066 = false ∧
    wellFormedWord 0xFFFF = false := by decide

/-- Vector E9. -/
theorem test_decode_refuses_family_F : 
    decode 0xF000 = .error (.unknown 0xF000) ∧
    decode 0xF01F = .error (.unknown 0xF01F) ∧
    decode 0xF066 = .error (.unknown 0xF066) ∧
    decode 0xFFFF = .error (.unknown 0xFFFF) := by decide

/-- Vectors E7 and E10. -/
theorem test_well_formed : wellFormedWord 0x800E = true ∧ wellFormedWord 0xD000 = true := by decide

/-! ### One step, from spec/95's vectors -/

/-- Vector A1 and S10. -/
theorem test_ldImm : 
    (after s0 0x6FAA).map
      (fun t => (t.getV 0xF, t.pc)) = some (0xAA, 0x202) := by decide

/-- Vector A2. -/
theorem test_addImm_no_flag : 
    (after ((s0.setV 0x3 0x00).setV 0xF 0x77) 0x73FF).map
      (fun t => (t.getV 0x3, t.getV 0xF)) = some (0xFF, 0x77) := by decide

/-- Vector A3. -/
theorem test_addImm_wraps : 
    (after ((s0.setV 0x3 0xF0).setV 0xF 0x77) 0x7320).map
      (fun t => (t.getV 0x3, t.getV 0xF)) = some (0x10, 0x77) := by decide

/-- Vector A5. -/
theorem test_ldReg : 
    (after (s0.setV 0x1 0x7F) 0x8010).map
      (fun t => (t.getV 0x0, t.getV 0x1)) = some (0x7F, 0x7F) := by decide

/-- Vector A6. -/
theorem test_orReg : 
    (after (((s0.setV 0x0 0x0F).setV 0x1 0xF0).setV 0xF 0x77) 0x8011).map
      (fun t => (t.getV 0x0, t.getV 0xF)) = some (0xFF, 0x77) := by decide

/-- Vector A7. -/
theorem test_andReg : 
    (after (((s0.setV 0x0 0x3C).setV 0x1 0x0F).setV 0xF 0x77) 0x8012).map
      (fun t => (t.getV 0x0, t.getV 0xF)) = some (0x0C, 0x77) := by decide

/-- Vector A8. -/
theorem test_xorReg : 
    (after ((s0.setV 0x3 0x5A).setV 0xF 0x77) 0x8333).map
      (fun t => (t.getV 0x3, t.getV 0xF)) = some (0x00, 0x77) := by decide

/-- Vector A9. -/
theorem test_addReg_carry : 
    (after ((s0.setV 0x0 0xFF).setV 0x1 0x01) 0x8014).map
      (fun t => (t.getV 0x0, t.getV 0xF)) = some (0x00, 1) := by decide

/-- Vector A12. -/
theorem test_addReg_into_vf : 
    (after ((s0.setV 0x0 0xF5).setV 0xF 0x10) 0x8F04).map
      (fun t => (t.getV 0x0, t.getV 0xF)) = some (0xF5, 1) := by decide

/-- Vector A15. -/
theorem test_subReg_borrow : 
    (after ((s0.setV 0x0 0x00).setV 0x1 0x01) 0x8015).map
      (fun t => (t.getV 0x0, t.getV 0xF)) = some (0xFF, 0) := by decide

/-- Vector A14. -/
theorem test_subReg_equal : 
    (after ((s0.setV 0x0 0x42).setV 0x1 0x42) 0x8015).map
      (fun t => (t.getV 0x0, t.getV 0xF)) = some (0x00, 1) := by decide

/-- Vector A18. -/
theorem test_subnReg : 
    (after ((s0.setV 0x0 0x05).setV 0x1 0x03) 0x8017).map
      (fun t => (t.getV 0x0, t.getV 0xF)) = some (0xFE, 0) := by decide

/-- Vector A17. -/
theorem test_subnReg_no_borrow : 
    (after ((s0.setV 0x0 0x00).setV 0x1 0x01) 0x8017).map
      (fun t => (t.getV 0x0, t.getV 0xF)) = some (0x01, 1) := by decide

/-- Vector A23. -/
theorem test_shr_ignores_vy : 
    (after ((s0.setV 0x2 0x81).setV 0x5 0x00) 0x8256).map
      (fun t => (t.getV 0x2, t.getV 0xF, t.getV 0x5)) = some (0x40, 1, 0x00) := by decide

/-- Vector A20. -/
theorem test_shr_vf : 
    (after (s0.setV 0xF 0x03) 0x8FF6).map
      (fun t => (t.getV 0xF)) = some (1) := by decide

/-- Vector A21. -/
theorem test_shl : 
    (after (s0.setV 0x0 0x80) 0x800E).map
      (fun t => (t.getV 0x0, t.getV 0xF)) = some (0x00, 1) := by decide

/-- Vector A22. -/
theorem test_shl_vf : 
    (after (s0.setV 0xF 0x40) 0x8F0E).map
      (fun t => (t.getV 0xF)) = some (0) := by decide

/-- Vector A25. -/
theorem test_rnd_mask_zero : 
    (after (s0.setV 0x5 0x33) 0xC500).map
      (fun t => (t.getV 0x5)) = some (0x00) := by
  have h : ∀ b : Byte, b &&& 0 = 0 := by decide
  change some (Config.randomByte 0 &&& 0x00) = some 0x00
  rw [h]

/-- Vector G1: cells (0,0) and (63,31) lit before. -/
theorem test_cls :
    (after ({ s0 with disp := writeCell (writeCell s0.disp 0 0 true) 63 31 true }.setV 0xF 0x33) 0x00E0).map
      (fun t => (readCell t.disp 0 0, readCell t.disp 63 31, t.getV 0xF)) = some (false, false, 0x33) := by decide +kernel

/-- Vector G2: clipped at the right edge, the start column wrapped. -/
theorem test_drw_clips :
    (after ({ s0 with i := 0x20C, mem := s0.mem.write 0x20C 0xFF }.setV 0 0x7E |>.setV 1 0x01) 0xD011).map
      (fun t => (readCell t.disp 62 1, readCell t.disp 63 1, readCell t.disp 0 1, t.getV 0xF)) =
        some (true, true, false, 0) := by decide +kernel

/-- Vector G3: as G2 with (63,1) lit before. -/
theorem test_drw_collides :
    (after ({ s0 with i := 0x20C, mem := s0.mem.write 0x20C 0xFF, disp := writeCell s0.disp 63 1 true }.setV 0 0x7E
      |>.setV 1 0x01) 0xD011).map 
      (fun t => (readCell t.disp 62 1, readCell t.disp 63 1, t.getV 0xF)) = some (true, false, 1) := by decide +kernel

/-- Vector G8: glyph 0 of the default FONT. -/
theorem test_drw_glyph :
    (after s0 0xD005).map (fun t => (readCell t.disp 3 0, readCell t.disp 4 0, readCell t.disp 3 1, readCell t.disp 1 1,
      t.getV 0xF)) = some (true, false, true, false, 0) := by decide +kernel

/-- Vector G7: row 1 would be clipped, its byte is read all the same. -/
theorem test_drw_fault :
    faultOf ({ s0 with i := 0xFFF }.setV 1 31) 0xD012 = some (.outOfBounds 0x200 0xD012 0x1000) := by decide

/-- Vector C2. -/
theorem test_jp_odd : 
    (after s0 0x1201).map
      (fun t => (t.pc)) = some (0x201) := by decide

/-- Vector C3. -/
theorem test_call : 
    (after { s0 with stack := [0x204] } 0x2300).map
      (fun t => (t.stack, t.pc)) = some ([0x202, 0x204], 0x300) := by decide

/-- Vector C4. -/
theorem test_ret : 
    (after { s0 with stack := [0x206], pc := 0x212 } 0x00EE).map
      (fun t => (t.stack, t.pc)) = some ([], 0x206) := by decide

/-- Vector C5. -/
theorem test_ret_empty : faultOf s0 0x00EE = some (.stackUnderflow 0x200 0x00EE) := by decide

/-- Vector C7. -/
theorem test_jpV0 : 
    (after ((s0.setV 0x0 0x10).setV 0x1 0x99) 0xB123).map
      (fun t => (t.pc)) = some (0x133) := by decide

/-- Vector C8. -/
theorem test_jpV0_top : 
    (after (s0.setV 0x0 0xFF) 0xBFFF).map
      (fun t => (t.pc)) = some (0x10FE) := by decide

/-- Vector C9. -/
theorem test_seImm : 
    (after (s0.setV 0x0 0x12) 0x3012).map
      (fun t => (t.pc)) = some (0x204) := by decide

/-- Vector C10. -/
theorem test_seImm_not : 
    (after (s0.setV 0x0 0x13) 0x3012).map
      (fun t => (t.pc)) = some (0x202) := by decide

/-- Vector C12. -/
theorem test_sneImm_not : 
    (after (s0.setV 0x0 0x05) 0x4005).map
      (fun t => (t.pc)) = some (0x202) := by decide

/-- Vector C13. -/
theorem test_seReg : 
    (after s0 0x5110).map
      (fun t => (t.pc)) = some (0x204) := by decide

/-- Vector C14. -/
theorem test_sneReg_not : 
    (after s0 0x9110).map
      (fun t => (t.pc)) = some (0x202) := by decide

/-- Vector C15. -/
theorem test_sneReg : 
    (after ((s0.setV 0x1 0x10).setV 0x2 0x11) 0x9120).map
      (fun t => (t.pc)) = some (0x204) := by decide

/-- Vector K1. -/
theorem test_skp : 
    (after { (s0.setV 0x3 7) with key := keysDown [7] } 0xE39E).map
      (fun t => (t.pc)) = some (0x204) := by decide

/-- Vector K4. -/
theorem test_skp_fault : 
    faultOf (s0.setV 3 0x10) 0xE39E = some (.keyIndexOutOfRange 0x200 0xE39E 0x10) := by decide

/-- Vector K3. -/
theorem test_sknp : 
    (after (s0.setV 0x3 7) 0xE3A1).map
      (fun t => (t.pc)) = some (0x204) := by decide

/-- Vector K5. -/
theorem test_ldVxK_waits : 
    (after { (s0.setV 0x3 0x55) with pc := 0x230 } 0xF30A).map
      (fun t => (t.pc, t.getV 0x3)) = some (0x230, 0x55) := by decide

/-- Vector K6. -/
theorem test_ldVxK_one : 
    (after { s0 with pc := 0x230, key := keysDown [0xB] } 0xF30A).map
      (fun t => (t.pc, t.getV 0x3)) = some (0x232, 0x0B) := by decide

/-- Vector K7: keys 2 and 9 down, either may be captured. -/
theorem test_ldVxK_choice :
    pressedKeys (keysDown [2, 9]) = [2, 9] ∧ chooseKey 2 [9] 0 = 2 ∧ chooseKey 2 [9] 1 = 9 := by decide

/-- Vector K9. -/
theorem test_ldVxDt : 
    (after { s0 with dt := 0x3B } 0xF507).map
      (fun t => (t.getV 0x5)) = some (0x3B) := by decide

/-- Vector K10. -/
theorem test_ldDtVx : 
    (after (s0.setV 0x5 0x3C) 0xF515).map
      (fun t => (t.dt)) = some (0x3C) := by decide

/-- Vector K11. -/
theorem test_ldStVx : 
    (after (s0.setV 0x5 0x02) 0xF518).map
      (fun t => (t.st)) = some (0x02) := by decide

/-- Vectors K12 and K13. -/
theorem test_tick : countDown 0x01 = 0x00 ∧ countDown 0x00 = 0x00 ∧ countDown 0x05 = 0x04 := by decide

/-- Vector K13 as a tick turn of a step: one tick acts on both timers. -/
theorem test_tick_step :
    (match step { s0 with script := [.tick], dt := 0x00, st := 0x05 } with
      | .next t => some (t.dt, t.st, t.script)
      | .fault _ => none
      | .refused _ => none) = some (0x00, 0x04, []) := by decide

/-- Vector M1. -/
theorem test_ldI : 
    (after s0 0xA300).map
      (fun t => (t.i)) = some (0x300) := by decide

/-- Vector M2. -/
theorem test_addI_flag : 
    (after { (s0.setV 0x2 0x10) with i := 0x0FF8 } 0xF21E).map
      (fun t => (t.i, t.getV 0xF)) = some (0x1008, 1) := by decide

/-- Vector M5. -/
theorem test_addI_vf : 
    (after { (s0.setV 0xF 0x20) with i := 0x100 } 0xFF1E).map
      (fun t => (t.i, t.getV 0xF)) = some (0x120, 0) := by decide

/-- Vector M7. -/
theorem test_addI_fault : 
    faultOf { (s0.setV 0 0x10) with i := 0xFFF0 } 0xF01E = some (.indexOverflow 0x200 0xF01E) := by decide

/-- Vector M8. -/
theorem test_ldF : 
    (after (s0.setV 0x0 0x0A) 0xF029).map
      (fun t => (t.i)) = some (0x032) := by decide

/-- Vector M11. -/
theorem test_ldF_beyond : 
    (after (s0.setV 0x0 0xFF) 0xF029).map
      (fun t => (t.i)) = some (0x4FB) := by decide

/-- Vector S8. -/
theorem test_ldB : 
    (after { (s0.setV 0x0 0xEA) with i := 0x300 } 0xF033).map
      (fun t => (t.mem.read 0x300, t.mem.read 0x301, t.mem.read 0x302, t.i)) = some (2, 3, 4, 0x300) := by decide

/-- Vector M14. -/
theorem test_ldB_fault : 
    faultOf { (s0.setV 0 7) with i := 0xFFE } 0xF033 = some (.outOfBounds 0x200 0xF033 0x1000) := by decide

/-- Vector M15. -/
theorem test_ldMemVx : 
    (after { (((s0.setV 0x0 0x6A).setV 0x1 0x3C).setV 0x2 0x99) with i := 0x300 } 0xF155).map
      (fun t => (t.mem.read 0x300, t.mem.read 0x301, t.mem.read 0x302, t.i)) = some (0x6A, 0x3C, 0, 0x300) := by decide

/-- Vector M16. -/
theorem test_ldMemVx_fault : faultOf { s0 with i := 0xFFE } 0xF255 = some (.outOfBounds 0x200 0xF255 0x1000) := by decide

/-- Vector M17. -/
theorem test_ldVxMem :
    (after { s0 with i := 0x300, mem := [(0x300, 2), (0x301, 5), (0x302, 4)] } 0xF265).map
      (fun t => (t.getV 0, t.getV 1, t.getV 2, t.getV 3, t.i)) = some (2, 5, 4, 0, 0x300) := by decide

/-- Vector M19. -/
theorem test_ldVxMem_fault : faultOf { s0 with i := 0x1000 } 0xF065 = some (.outOfBounds 0x200 0xF065 0x1000) := by decide

/-! ### Fetch and load -/

/-- Vector F2: an odd PC is legal. -/
theorem test_fetch_odd : (after { s0 with pc := 0x201 } 0x6122).map (fun t => (t.getV 1, t.pc)) = some (0x22, 0x203) := by decide

/-- Vector F3: the last address a fetch succeeds at. -/
theorem test_fetch_last : (after { s0 with pc := 0xFFE } 0x6011).map (fun t => (t.getV 0, t.pc)) = some (0x11, 0x1000) := by decide

/-- Vector F4. -/
theorem test_fetch_fault : step { turnNow s0 [] with pc := 0xFFF } = .fault (.fetchOutOfBounds 0xFFF 0x1000) := rfl

/-- Vectors F6 and I1: zeros decode to nothing. -/
theorem test_fetch_unknown : step (turnNow s0 []) = .fault (.unknownOpcode 0x200 0x0000) := rfl

/-- Vector S10: the ROM `6A 3C`. -/
theorem test_load_and_step :
    (match step (turnNow (rom2 0x6A 0x3C) []) with
      | .next t => some (t.getV 0xA, t.pc)
      | .fault _ => none
      | .refused _ => none) = some (0x3C, 0x202) := by decide

/-- Vector I4: the font's last byte, the hole after it, and the ROM's first byte. -/
theorem test_load_layout :
    (State.load font [0xAB]).mem.read 0x04F = 0x80 ∧ (State.load font [0xAB]).mem.read 0x050 = 0 ∧
      (State.load font [0xAB]).mem.read 0x200 = 0xAB := by decide

/-- Rule R78 with a FONT that is not the default: the font region's first byte is FONT's, and a byte equal to the default's is
not listed. -/
theorem test_load_other_font :
    (State.load (Machine.font.set 0 0x3C) []).mem = [(0x000, 0x3C)] := by decide

/-- The default FONT's glyph 1, whose address is 5 × 1 (rule R78's table). -/
theorem test_font_glyph : [0, 1, 2, 3, 4].map (fun k => s0.mem.read (5 + k)) = [0x20, 0x60, 0x20, 0x20, 0x70] := by decide

/-! ### The end of a run (rule R316) -/

/-- A jump to its own address ends a run; `00E0`, `1200` from 0x200 does not (conflict C13). -/
theorem test_selfJump :
    (rom2 0x12 0x00).atSelfJump = true ∧ (rom2 0x00 0xE0).atSelfJump = false ∧
      (({ s0 with pc := 0x202 } : State).storeWord 0x1200).atSelfJump = false := by decide

/-- ROM `61 05 12 02`: one step, then the self-jump at 0x202, well within the bound. -/
theorem test_run_selfJump :
    (match runToEnd 9 (turnNow { s0 with mem := [(0x200, 0x61), (0x201, 0x05), (0x202, 0x12), (0x203, 0x02)] } []) with
      | .selfJump t => some (t.pc, t.getV 1)
      | .fatal _ => none
      | .bound _ => none
      | .refused _ => none) = some (0x202, 5) := by decide

/-- Nothing at 0x200: the run ends at a fatal condition (vector I1). -/
theorem test_run_fatal : runToEnd 9 (turnNow s0 []) = .fatal (.unknownOpcode 0x200 0x0000) := rfl

/-- A bound of 0 steps observes the start state. -/
theorem test_run_bound : runToEnd 0 s0 = .bound s0 := rfl

/-- The host's core is this machine. -/
theorem test_core : Sys2Proof.core.reset = State.reset ∧ Sys2Proof.core.step = step := ⟨rfl, rfl⟩

/-- Writing the start content removes the entry: memory is canonical (log entry 13). -/
theorem test_memory_canonical : (Memory.write [(0x300, 7)] 0x300 0).wf = true ∧
    Memory.write [(0x300, 7)] 0x300 0 = [] := by decide

/-! ### Witnesses: states and operands that meet the hypotheses of the obligations, at the ends of their ranges -/

theorem test_witness_EncodeInvertsDecode : decode 0x6A3C = .ok (.ldImm 0xA 0x3C) := by decide

theorem test_witness_DecoderFollowsOpcodeMap : (⟨"SHR_Vx____Vy", 0x8006, 0xF00F⟩ : OpcodeRow) ∈ opcodeMap ∧
    (0x8256 : Opcode) &&& 0xF00F = 0x8006 := by decide

theorem test_witness_OpcodeRowsAreDisjoint : ∃ r r' : OpcodeRow, r ∈ opcodeMap ∧ r' ∈ opcodeMap ∧
    (0xD125 : Opcode) &&& r.mask = r.pattern ∧ (0xD125 : Opcode) &&& r'.mask = r'.pattern :=
  ⟨⟨"DRW_Vx__Vy__n", 0xD000, 0xF000⟩, ⟨"DRW_Vx__Vy__n", 0xD000, 0xF000⟩, by decide⟩

theorem test_witness_FetchReadsTheBigEndianWord : ({ s0 with pc := 4094 } : State).pc.toNat + 1 < 4096 := by decide

theorem test_witness_StepRunsTheDecodedInstruction_ok :
    (turnNow (rom2 0x6A 0x3C) [3]).run = .running ∧
      (turnNow (rom2 0x6A 0x3C) [3]).takeTurn = (.instruction (keysDown [3]), rom2 0x6A 0x3C) ∧
      (turnNow (rom2 0x6A 0x3C) [3]).pc.toNat + 1 < 4096 ∧
      decode (turnNow (rom2 0x6A 0x3C) [3]).opcodeAtPc = .ok (.ldImm 0xA 0x3C) := by
  refine ⟨rfl, rfl, by decide, by decide⟩

theorem test_witness_StepRunsTheDecodedInstruction_error :
    (turnNow s0 []).run = .running ∧ (turnNow s0 []).takeTurn = (.instruction (keysDown []), s0) ∧
      (turnNow s0 []).pc.toNat + 1 < 4096 ∧ decode (turnNow s0 []).opcodeAtPc = .error (.unknown 0) := by
  refine ⟨rfl, rfl, by decide, by decide⟩

theorem test_witness_FetchOutOfBoundsIsFatal :
    (turnNow { s0 with pc := 4095 } []).run = .running ∧
      (turnNow { s0 with pc := 4095 } []).takeTurn = (.instruction (keysDown []), { s0 with pc := 4095 }) ∧
      4095 ≤ (turnNow { s0 with pc := 4095 } []).pc.toNat ∧ 4095 ≤ (turnNow { s0 with pc := 4096 } []).pc.toNat := by
  refine ⟨rfl, rfl, by decide, by decide⟩

theorem test_witness_HaltedTakesNoStep : (State.load font (List.replicate 3585 0)).run = .halted (.loadOutOfBounds 4096) := by
  simp only [State.load, initialLoad_error font (List.replicate 3585 0) (by rw [List.length_replicate]; decide)]

theorem test_witness_TickDecrementsBothTimers :
    ({ s0 with script := [.tick], dt := 0, st := 0xFF } : State).run = .running ∧
      ({ s0 with script := [.tick], dt := 0, st := 0xFF } : State).takeTurn = (.tick, { s0 with dt := 0, st := 0xFF }) :=
  ⟨rfl, rfl⟩

theorem test_witness_TicksCountDownToZero :
    ({ s0 with script := [.tick, .tick, .tick], dt := 2, st := 7 } : State).run = .running ∧
      ({ s0 with script := [.tick, .tick, .tick], dt := 2, st := 7 } : State).script = List.replicate 3 .tick ++ [] :=
  ⟨rfl, rfl⟩

theorem test_witness_FatalStep_opcode :
    (turnNow s0 []).run = .running ∧ step (turnNow s0 []) = .fault (.unknownOpcode 0x200 0) ∧
      (turnNow s0 []).pc.toNat + 1 < 4096 := by
  refine ⟨rfl, rfl, by decide⟩

theorem test_witness_FatalStep_fetch :
    (turnNow { s0 with pc := 4095 } []).run = .running ∧
      step (turnNow { s0 with pc := 4095 } []) = .fault (.fetchOutOfBounds 4095 4096) ∧
      4096 ≤ (turnNow { s0 with pc := 4095 } []).pc.toNat + 1 := by
  refine ⟨rfl, rfl, by decide⟩

theorem test_witness_LoadedStartState :
    (List.replicate 3584 (0xAB : Byte)).length ≤ 3584 ∧ 0x04F < 0x50 ∧ (0x50 ≤ 0x1FF ∧ 0x1FF < 0x200) ∧
      3583 < (List.replicate 3584 (0xAB : Byte)).length ∧
      (0x200 + ([0xAB] : List Byte).length ≤ 4095 ∧ 4095 < 4096) := by
  rw [List.length_replicate]; decide

theorem test_witness_OversizeRomNeverSteps : 3584 < (List.replicate 3585 (0 : Byte)).length := by
  rw [List.length_replicate]; decide

theorem test_witness_FetchSeesStoredBytes : ∃ t : State,
    ({ s0 with i := 0x202, pc := 0x202 } : State).i.toNat + (1 : Reg).val + 1 ≤ 4096 ∧
      exec (.ldMemVx 1) { s0 with i := 0x202, pc := 0x202 } = .next t ∧
      (1 : Reg).val = (0 : Reg).val + 1 ∧ (1 : Reg) ≤ 1 ∧ t.pc.toNat = 0x202 + (0 : Reg).val := by
  refine ⟨_, by decide, rfl, rfl, by decide, by decide⟩

theorem test_witness_RandomByteIsMasked : (0x00 : Byte) = 0 := rfl

theorem test_witness_DrawFlipsTheSpriteCells :
    ((0 : Nibble).toNat = 0 ∨ ({ s0 with i := 0xFFFF } : State).i.toNat + (0 : Nibble).toNat ≤ 4096) ∧
      ((15 : Nibble).toNat = 0 ∨ ({ s0 with i := 4081 } : State).i.toNat + (15 : Nibble).toNat ≤ 4096) := by decide

theorem test_witness_DrawReadsEveryRowInBounds :
    (0 < (1 : Nibble).toNat ∧ 4096 < ({ s0 with i := 4096 } : State).i.toNat + (1 : Nibble).toNat) ∧
      (0 < (15 : Nibble).toNat ∧ 4096 < ({ s0 with i := 4082 } : State).i.toNat + (15 : Nibble).toNat) := by decide

theorem test_witness_DrawTwiceRestoresTheDisplay : ∃ t : State, exec (.drw 0 1 5) s0 = .next t ∧
    t.i = s0.i ∧ (∀ r, r < (5 : Nibble).toNat → t.mem.read (s0.i.toNat + r) = s0.mem.read (s0.i.toNat + r)) ∧
    (t.getV 0).toNat % 64 = (s0.getV 0).toNat % 64 ∧ (t.getV 1).toNat % 32 = (s0.getV 1).toNat % 32 :=
  ⟨_, rfl, rfl, fun _ _ => rfl, rfl, rfl⟩

theorem test_witness_ReturnPopsThePc :
    ({ s0 with stack := [0x206, 0x300] } : State).stack = 0x206 :: [0x300] ∧ s0.stack = [] := ⟨rfl, rfl⟩

theorem test_witness_JumpsGoToTheirTargets : ∃ t, exec (.jpV0 0xF01) (s0.setV 0 0xFE) = .next t ∧ t.pc.toNat = 0xFFF :=
  ⟨_, rfl, by decide⟩

theorem test_witness_JumpsGoToTheirTargets_jp : ∃ t, exec (.jp 0xFFF) s0 = .next t ∧ t.pc.toNat = 0xFFF :=
  ⟨_, rfl, by decide⟩

theorem test_witness_LoadMeetsTheInvariant : (List.replicate 3584 (0xAB : Byte)).length ≤ 3584 := by
  rw [List.length_replicate]

theorem test_witness_SelfJumpRepeats :
    (turnNow (rom2 0x12 0x00) []).atSelfJump = true ∧
      (turnNow (rom2 0x12 0x00) []).takeTurn.1 ≠ .tick ∧
      { rom2 0x12 0x00 with script := [.tick], dt := 1 }.atSelfJump = true ∧
      { rom2 0x12 0x00 with script := [.tick], dt := 1 }.takeTurn.1 = .tick := by decide

theorem test_witness_ClearTurnsEveryCellOff : ∀ x y, readCell s0.disp x y = false := readCell_clearDisplay

theorem test_witness_ReturnUndoesCall : ∃ t : State, exec (.call 0x300) s0 = .next t ∧ t.stack = t.stack := ⟨_, rfl, rfl⟩

theorem test_witness_CallRespectsTheStackBound :
    ({ s0 with stack := [0x202] } : State).stack.length = 1 ∧ s0.stack.length < 1 := by decide

theorem test_witness_KeySkipsReadTheKeypad : ((s0.setV 3 15).getV 3).toNat = (15 : Key).val := by decide

theorem test_witness_KeyIndexAboveFifteenIsFatal : 15 < ((s0.setV 3 16).getV 3).toNat := by decide

theorem test_witness_KeyWaitCapturesAPressedKey :
    (∀ k : Key, s0.key[k] = false) ∧ ∃ k : Key, ({ s0 with key := keysDown [15] } : State).key[k] = true := by decide

theorem test_witness_AnyPressedKeyMayBeCaptured : pressedKeys (keysDown [2, 9, 15]) = 2 :: [9, 15] := by decide

theorem test_witness_KeyWaitLeavesPcUnchanged :
    (turnNow (rom2 0xF3 0x0A) []).run = .running ∧
      (turnNow (rom2 0xF3 0x0A) []).takeTurn = (.instruction (keysDown []), rom2 0xF3 0x0A) ∧
      (turnNow (rom2 0xF3 0x0A) []).pc.toNat + 1 < 4096 ∧
      (turnNow (rom2 0xF3 0x0A) []).opcodeAtPc = encode (.ldVxK 3) ∧ ∀ j : Key, (keysDown [])[j] = false := by
  refine ⟨rfl, rfl, by decide, by decide, by decide⟩

theorem test_witness_AddIndexFlagsLeavingTwelveBits :
    ({ s0.setV 0 0x0F with i := 0xFFF0 } : State).i.toNat + ((s0.setV 0 0x0F).getV 0).toNat ≤ 0xFFFF ∧
      0xFFFF < ({ s0.setV 0 0x10 with i := 0xFFF0 } : State).i.toNat + ((s0.setV 0 0x10).getV 0).toNat := by decide

theorem test_witness_BcdStoresThreeDigits : ({ s0 with i := 4093 } : State).i.toNat + 3 ≤ 4096 := by decide

theorem test_witness_StoreWritesRegistersInOrder : ({ s0 with i := 4080 } : State).i.toNat + (15 : Reg).val + 1 ≤ 4096 := by decide

theorem test_witness_LoadReadsRegistersInOrder : ({ s0 with i := 4095 } : State).i.toNat + (0 : Reg).val + 1 ≤ 4096 := by decide

theorem test_witness_BlocksOutOfBoundsAreFatal :
    4096 < ({ s0 with i := 4094 } : State).i.toNat + 3 ∧ 4096 < ({ s0 with i := 4081 } : State).i.toNat + (15 : Reg).val + 1 ∧
      4096 < ({ s0 with i := 4096 } : State).i.toNat + (0 : Reg).val + 1 := by decide

theorem test_witness_StoreThenLoadRestoresRegisters :
    ∃ t : State, exec (.ldMemVx 15) { s0 with i := 0x300 } = .next t ∧ t.i = t.i ∧
    ∀ k : Reg, k ≤ 15 → t.mem.read (t.i.toNat + k.val) = t.mem.read (t.i.toNat + k.val) :=
  ⟨_, rfl, rfl, fun _ _ => rfl⟩

theorem test_witness_InstructionsKeepTheirFrame : (∃ t, exec (.addReg 1 2) s0 = .next t) ∧ writesReg (.addReg 1 2) 3 = false :=
  ⟨⟨_, rfl⟩, rfl⟩

theorem test_witness_PcFollowsTheTable : ∃ t, exec (.jpV0 0xFFF) (s0.setV 0 0xFF) = .next t := ⟨_, rfl⟩

theorem test_witness_InstructionsRaiseOnlyTheirFaults : exec .ret s0 = .fault (.stackUnderflow 0x1FE 0x00EE) := rfl

theorem test_witness_OthersDoNotReadTheKeypad : readsKeypad (.drw 1 2 5) = false := rfl

theorem test_witness_TimersAreReadByLoadAlone : (∀ x, Instr.cls ≠ .ldStVx x) ∧
    ∀ x, Instr.cls ≠ .ldVxDt x ∧ Instr.cls ≠ .ldDtVx x :=
  by simp

theorem test_witness_StepKeepsTheInvariant : ∃ t, (turnNow (rom2 0x22 0x10) []).Inv ∧
    step (turnNow (rom2 0x22 0x10) []) = .next t := by
  refine ⟨_, ⟨by decide, by decide, fun w hw => absurd hw ?_⟩, rfl⟩
  change w ∉ []
  simp

end Sys2Proof.Tests
end

section
/-! PROOFS. Frames of single writes: what changes the listed parts alone, and how frames compose. -/

namespace Sys2Proof.Machine

theorem SamePart.trans {p : Part} {s t u : State} (hst : SamePart p s t) (htu : SamePart p t u) : SamePart p s u := by
  cases p with
  | mem => exact fun a => (htu a).trans (hst a)
  | regs => exact fun r => (htu r).trans (hst r)
  | index | pc | stack | dt | st | disp | run | key | script | draws => exact Eq.trans htu hst

theorem OnlyChanges.trans {parts : List Part} {s t u : State} (hst : OnlyChanges parts s t)
    (htu : OnlyChanges parts t u) : OnlyChanges parts s u :=
  fun p hp => (hst p hp).trans (htu p hp)

theorem onlyChanges_setPc {parts : List Part} (h : .pc ∈ parts) (s : State) (w : Word) :
    OnlyChanges parts s (s.setPc w) := by
  intro p hp
  cases p with
  | pc => exact absurd h hp
  | mem | regs => exact fun _ => rfl
  | index | stack | dt | st | disp | run | key | script | draws => rfl

theorem onlyChanges_setStack {parts : List Part} (h : .stack ∈ parts) (s : State) (l : List Word) :
    OnlyChanges parts s (s.setStack l) := by
  intro p hp
  cases p with
  | stack => exact absurd h hp
  | mem | regs => exact fun _ => rfl
  | index | pc | dt | st | disp | run | key | script | draws => rfl

end Sys2Proof.Machine
end

section
/-! PROOFS. The return `00EE` on a stack with an entry and on an empty one (rules R45, R201, R275). -/

namespace Sys2Proof.Machine

theorem exec_ret (s : State) : exec .ret s = execRet s := rfl

theorem execRet_of_cons {s : State} {w : Word} {rest : List Word} (h : s.stack = w :: rest) :
    execRet s = .next ((s.setStack rest).setPc w) := by
  simp [execRet, h, popTop]

theorem execRet_of_nil {s : State} (h : s.stack = []) :
    execRet s = .fault (.stackUnderflow (s.pc - 2) 0x00EE) := by
  simp [execRet, h, popTop, raise, State.fetchAddr, encode]

/-- Settles O33: a return with an entry is a write of the stack and then of PC, whose frames compose. -/
theorem returnPopsThePc : Obligations.ReturnPopsThePc := by
  intro s
  refine ⟨fun w rest hstack => ?_, fun hstack => ?_⟩
  · have hframe : OnlyChanges [.pc, .stack] s ((s.setStack rest).setPc w) :=
      (onlyChanges_setStack (by simp) s rest).trans (onlyChanges_setPc (by simp) _ w)
    exact ⟨_, (exec_ret s).trans (execRet_of_cons hstack), hframe, State.setPc_pc _ w, State.setStack_stack s rest⟩
  · exact (exec_ret s).trans (execRet_of_nil hstack)

end Sys2Proof.Machine
end

section
/-! PROOFS. The opcode's bytes in big-endian order, and the fetch that reads them (rules R74, R131, R133). -/

namespace Sys2Proof

@[simp] theorem highByte_joinBytes (hi lo : Byte) : highByte (joinBytes hi lo) = hi := by
  apply BitVec.eq_of_toNat_eq
  rw [highByte, BitVec.extractLsb'_toNat, joinBytes_toNat, Nat.shiftRight_eq_div_pow]
  omega

@[simp] theorem lowByte_joinBytes (hi lo : Byte) : lowByte (joinBytes hi lo) = lo := by
  apply BitVec.eq_of_toNat_eq
  rw [lowByte, BitVec.extractLsb'_toNat, joinBytes_toNat, Nat.shiftRight_eq_div_pow]
  omega

end Sys2Proof

namespace Sys2Proof.Machine

/-- Settles O7: in bounds the fetch answers the joined bytes and a write of PC alone, which cannot wrap there. -/
theorem fetchReadsTheBigEndianWord : Obligations.FetchReadsTheBigEndianWord := by
  intro s hpc
  have hadvance : (s.pc + 2).toNat = s.pc.toNat + 2 := by bv_omega
  exact ⟨_, _, s.fetch_ok hpc, highByte_joinBytes _ _, lowByte_joinBytes _ _,
    onlyChanges_setPc (by simp) s _, hadvance⟩

end Sys2Proof.Machine
end

section
/-! PROOFS. The step of a halted core, and the run state that a faulting step leaves (rules R54, R139, R272). -/

namespace Sys2Proof.Machine

theorem step_of_halted {s : State} {f : Fault} (h : s.run = .halted f) : step s = .fault f := by
  simp [step, h, raise]

theorem runAfter_of_fault {s : State} {f : Fault} (h : step s = .fault f) : runAfter s = .halted f := by
  simp [runAfter, h]

/-- Settles O10: the halted step answers its fault before any turn is taken, and a faulting step leaves that fault halted. -/
theorem haltedTakesNoStep : Obligations.HaltedTakesNoStep := by
  intro s f hrun
  have hstep : step s = .fault f := step_of_halted hrun
  exact ⟨hstep, runAfter_of_fault hstep⟩

end Sys2Proof.Machine
end

section
/-! PROOFS. The register load `6xnn`: its word, and the frame of a single register write (rules R33, R102, R110, R152). -/

namespace Sys2Proof.Machine

theorem onlyChanges_setV {parts : List Part} (h : .regs ∈ parts) (s : State) (x : Reg) (b : Byte) :
    OnlyChanges parts s (s.setV x b) := by
  intro p hp
  cases p with
  | regs => exact absurd h hp
  | mem => exact fun _ => rfl
  | index | pc | stack | dt | st | disp | run | key | script | draws => rfl

theorem exec_ldImm (x : Reg) (nn : Byte) (s : State) : exec (.ldImm x nn) s = .next (s.setV x nn) := rfl

/-- The family nibble 6 selects the arm, and the fields read back are those the encoder packed. -/
theorem encodedAs_ldImm (x : Reg) (nn : Byte) : EncodedAs (.ldImm x nn) 0x6000 0xF000 := by
  have hf : 6 < 16 := by decide
  have hdecode : decode (packXI 6 x nn) = .ok (.ldImm x nn) := by
    simp [decode, family_packXI hf, x_packXI hf, nn_packXI hf]
  exact ⟨packXI_and_mask hf x nn, hdecode⟩

/-- Settles O20: the instruction is one register write, whose frame and read-back are the claim. -/
theorem loadImmediateWritesVx : Obligations.LoadImmediateWritesVx := by
  intro x nn s
  exact ⟨encodedAs_ldImm x nn, _, exec_ldImm x nn s, onlyChanges_setV (by simp) s x nn,
    fun r => s.getV_setV x r nn⟩

end Sys2Proof.Machine
end

section
/-! PROOFS. The screen clear `00E0`: its word, the frame of a display write, and the clear of a clear display (rules R110, R181). -/

namespace Sys2Proof.Machine

theorem onlyChanges_setDisp {parts : List Part} (h : .disp ∈ parts) (s : State) (d : Display) :
    OnlyChanges parts s (s.setDisp d) := by
  intro p hp
  cases p with
  | disp => exact absurd h hp
  | mem | regs => exact fun _ => rfl
  | index | pc | stack | dt | st | run | key | script | draws => rfl

/-- Writing back the display that is there changes nothing. -/
@[simp] theorem State.setDisp_self (s : State) : s.setDisp s.disp = s := rfl

/-- The clear display is the only one with every cell off. -/
theorem eq_clearDisplay {d : Display} (h : ∀ x y, readCell d x y = false) : d = clearDisplay :=
  display_ext fun x y => (h x y).trans (readCell_clearDisplay x y).symm

theorem exec_cls (s : State) : exec .cls s = .next (s.setDisp clearDisplay) := rfl

theorem encodedAs_cls : EncodedAs .cls 0x00E0 0xFFFF := ⟨by decide, by decide⟩

/-- Settles O27: the instruction writes the clear display, which a display with every cell off already is. -/
theorem clearTurnsEveryCellOff : Obligations.ClearTurnsEveryCellOff := by
  intro s
  have hsame (hoff : ∀ x y, readCell s.disp x y = false) : s.setDisp clearDisplay = s := by
    rw [← eq_clearDisplay hoff, State.setDisp_self]
  exact ⟨encodedAs_cls, _, exec_cls s, onlyChanges_setDisp (by simp) s clearDisplay, readCell_clearDisplay, hsame⟩

end Sys2Proof.Machine
end

section
/-! PROOFS. The skips `3xnn`, `4xnn`, `5xy0`, `9xy0`: the words of the first two, and the one conditional write of PC that all
four are (rules R110, R210 to R214). -/

namespace Sys2Proof.Machine

theorem OnlyChanges.refl (parts : List Part) (s : State) : OnlyChanges parts s s := by
  intro p _
  cases p with
  | mem | regs => exact fun _ => rfl
  | index | pc | stack | dt | st | disp | run | key | script | draws => rfl

theorem onlyChanges_skipIf {parts : List Part} (h : .pc ∈ parts) (s : State) (c : Bool) :
    OnlyChanges parts s (s.skipIf c) := by
  cases c with
  | false => exact .refl parts s
  | true => exact onlyChanges_setPc h s (s.pc + 2)

/-- The common form of the skips: whatever the condition, only PC moves, and it moves exactly when the condition holds. -/
theorem completes_of_exec_skipIf {i : Instr} {s : State} {c : Bool} (hexec : exec i s = .next (s.skipIf c)) :
    Completes i s [.pc] (fun t => t.pc = if c then s.pc + 2 else s.pc) :=
  ⟨_, hexec, onlyChanges_skipIf (by simp) s c, s.skipIf_pc c⟩

theorem completes_of_exec_skipIf_beq {i : Instr} {s : State} {a b : Byte}
    (hexec : exec i s = .next (s.skipIf (a == b))) :
    Completes i s [.pc] (fun t => t.pc = if a = b then s.pc + 2 else s.pc) := by
  simpa only [beq_iff_eq] using completes_of_exec_skipIf hexec

theorem completes_of_exec_skipIf_bne {i : Instr} {s : State} {a b : Byte}
    (hexec : exec i s = .next (s.skipIf (a != b))) :
    Completes i s [.pc] (fun t => t.pc = if a = b then s.pc else s.pc + 2) := by
  simpa only [bne_iff_ne, ne_eq, ite_not] using completes_of_exec_skipIf hexec

theorem exec_seImm (x : Reg) (nn : Byte) (s : State) : exec (.seImm x nn) s = .next (s.skipIf (s.getV x == nn)) := rfl

theorem exec_sneImm (x : Reg) (nn : Byte) (s : State) : exec (.sneImm x nn) s = .next (s.skipIf (s.getV x != nn)) := rfl

theorem exec_seReg (x y : Reg) (s : State) : exec (.seReg x y) s = .next (s.skipIf (s.getV x == s.getV y)) := rfl

theorem exec_sneReg (x y : Reg) (s : State) : exec (.sneReg x y) s = .next (s.skipIf (s.getV x != s.getV y)) := rfl

/-- An instruction of format XI whose family nibble alone selects its arm: the fields the decoder reads back are those the
encoder packed (rule R102). -/
theorem encodedAs_of_packXI {f : Nat} (hf : f < 16) {mk : Reg → Byte → Instr}
    (hencode : ∀ x nn, encode (mk x nn) = packXI f x nn)
    (hdecode : ∀ w, Opcode.family w = BitVec.ofNat 4 f → decode w = .ok (mk (Opcode.x w) (Opcode.nn w)))
    (x : Reg) (nn : Byte) : EncodedAs (mk x nn) ((BitVec.ofNat 4 f).setWidth 16 <<< 12) 0xF000 := by
  have hback : decode (packXI f x nn) = .ok (mk x nn) := by
    rw [hdecode _ (family_packXI hf x nn), x_packXI hf, nn_packXI hf]
  rw [EncodedAs, hencode]
  exact ⟨packXI_and_mask hf x nn, hback⟩

theorem encodedAs_seImm (x : Reg) (nn : Byte) : EncodedAs (.seImm x nn) 0x3000 0xF000 :=
  encodedAs_of_packXI (f := 3) (by decide) (fun _ _ => rfl) (fun w h => by simp [decode, h]) x nn

theorem encodedAs_sneImm (x : Reg) (nn : Byte) : EncodedAs (.sneImm x nn) 0x4000 0xF000 :=
  encodedAs_of_packXI (f := 4) (by decide) (fun _ _ => rfl) (fun w h => by simp [decode, h]) x nn

/-- Settles O36: each skip is one conditional write of PC, on an equality for `3xnn` and `5xy0` and on its negation for `4xnn`
and `9xy0`. -/
theorem skipsOnTheirConditions : Obligations.SkipsOnTheirConditions := by
  intro x y nn s
  exact ⟨encodedAs_seImm x nn, encodedAs_sneImm x nn,
    completes_of_exec_skipIf_beq (exec_seImm x nn s), completes_of_exec_skipIf_bne (exec_sneImm x nn s),
    completes_of_exec_skipIf_beq (exec_seReg x y s), completes_of_exec_skipIf_bne (exec_sneReg x y s)⟩

end Sys2Proof.Machine
end

section
/-! PROOFS. The timer moves `Fx07`, `Fx15`, `Fx18`: the words of format XK, whose low byte selects the arm, and the frame of a
timer write (rules R47, R48, R104, R110, R233, R235, R236). -/

namespace Sys2Proof.Machine

theorem onlyChanges_setDt {parts : List Part} (h : .dt ∈ parts) (s : State) (b : Byte) :
    OnlyChanges parts s (s.setDt b) := by
  intro p hp
  cases p with
  | dt => exact absurd h hp
  | mem | regs => exact fun _ => rfl
  | index | pc | stack | st | disp | run | key | script | draws => rfl

theorem onlyChanges_setSt {parts : List Part} (h : .st ∈ parts) (s : State) (b : Byte) :
    OnlyChanges parts s (s.setSt b) := by
  intro p hp
  cases p with
  | st => exact absurd h hp
  | mem | regs => exact fun _ => rfl
  | index | pc | stack | dt | disp | run | key | script | draws => rfl

theorem exec_ldVxDt (x : Reg) (s : State) : exec (.ldVxDt x) s = .next (s.setV x s.dt) := rfl

theorem exec_ldDtVx (x : Reg) (s : State) : exec (.ldDtVx x) s = .next (s.setDt (s.getV x)) := rfl

theorem exec_ldStVx (x : Reg) (s : State) : exec (.ldStVx x) s = .next (s.setSt (s.getV x)) := rfl

/-- An instruction of format XK, whose arm the family nibble and the low byte together select: the register the decoder reads
back is the one the encoder packed (rule R102). -/
theorem encodedAs_of_packXK {f : Nat} (hf : f < 16) {k : Byte} {mk : Reg → Instr}
    (hencode : ∀ x, encode (mk x) = packXI f x k)
    (hdecode : ∀ w, Opcode.family w = BitVec.ofNat 4 f → Opcode.nn w = k → decode w = .ok (mk (Opcode.x w)))
    (x : Reg) : EncodedAs (mk x) ((BitVec.ofNat 4 f).setWidth 16 <<< 12 ||| k.setWidth 16) 0xF0FF := by
  have hback : decode (packXI f x k) = .ok (mk x) := by
    rw [hdecode _ (family_packXI hf x k) (nn_packXI hf x k), x_packXI hf]
  rw [EncodedAs, hencode]
  exact ⟨packXK_and_mask hf x k, hback⟩

theorem encodedAs_ldVxDt (x : Reg) : EncodedAs (.ldVxDt x) 0xF007 0xF0FF :=
  encodedAs_of_packXK (f := 15) (k := 0x07) (by decide) (fun _ => rfl) (fun w hf hk => by simp [decode, decodeMisc, hf, hk]) x

theorem encodedAs_ldDtVx (x : Reg) : EncodedAs (.ldDtVx x) 0xF015 0xF0FF :=
  encodedAs_of_packXK (f := 15) (k := 0x15) (by decide) (fun _ => rfl) (fun w hf hk => by simp [decode, decodeMisc, hf, hk]) x

theorem encodedAs_ldStVx (x : Reg) : EncodedAs (.ldStVx x) 0xF018 0xF0FF :=
  encodedAs_of_packXK (f := 15) (k := 0x18) (by decide) (fun _ => rfl) (fun w hf hk => by simp [decode, decodeMisc, hf, hk]) x

/-- Settles O39: each move is one write, of Vx, of DT or of ST, whose frame leaves the source of the copy as it was. -/
theorem timerMovesCopy : Obligations.TimerMovesCopy := by
  intro x s
  refine ⟨encodedAs_ldVxDt x, encodedAs_ldDtVx x, encodedAs_ldStVx x, ?_, ?_, ?_⟩
  · exact ⟨_, exec_ldVxDt x s, onlyChanges_setV (by simp) s x s.dt, fun r => s.getV_setV x r s.dt⟩
  · exact ⟨_, exec_ldDtVx x s, onlyChanges_setDt (by simp) s _, s.setDt_dt _⟩
  · exact ⟨_, exec_ldStVx x s, onlyChanges_setSt (by simp) s _, s.setSt_st _⟩

end Sys2Proof.Machine
end

section
/-! PROOFS. The index load `Annn`: the words of format A, and the frame of a write of I (rules R102, R110, R251). -/

namespace Sys2Proof.Machine

theorem onlyChanges_setI {parts : List Part} (h : .index ∈ parts) (s : State) (w : Word) :
    OnlyChanges parts s (s.setI w) := by
  intro p hp
  cases p with
  | index => exact absurd h hp
  | mem | regs => exact fun _ => rfl
  | pc | stack | dt | st | disp | run | key | script | draws => rfl

/-- Twelve bits fit in the word, so the extension keeps the number. -/
@[simp] theorem zext16_toNat (nnn : Addr12) : (zext16 nnn).toNat = nnn.toNat :=
  BitVec.toNat_setWidth_of_le (by decide)

theorem exec_ldI (nnn : Addr12) (s : State) : exec (.ldI nnn) s = .next (s.setI (zext16 nnn)) := rfl

/-- An instruction of format A, whose family nibble alone selects its arm: the address the decoder reads back is the one the
encoder packed (rule R102). -/
theorem encodedAs_of_packA {f : Nat} (hf : f < 16) {mk : Addr12 → Instr}
    (hencode : ∀ nnn, encode (mk nnn) = packA f nnn)
    (hdecode : ∀ w, Opcode.family w = BitVec.ofNat 4 f → decode w = .ok (mk (Opcode.nnn w)))
    (nnn : Addr12) : EncodedAs (mk nnn) ((BitVec.ofNat 4 f).setWidth 16 <<< 12) 0xF000 := by
  have hback : decode (packA f nnn) = .ok (mk nnn) := by
    rw [hdecode _ (family_packA hf nnn), nnn_packA hf]
  rw [EncodedAs, hencode]
  exact ⟨packA_and_mask hf nnn, hback⟩

theorem encodedAs_ldI (nnn : Addr12) : EncodedAs (.ldI nnn) 0xA000 0xF000 :=
  encodedAs_of_packA (f := 10) (by decide) (fun _ => rfl) (fun w h => by simp [decode, h]) nnn

/-- Settles O43: the instruction is one write of I, and the extension of twelve bits stays below 0x1000. -/
theorem loadIndexImmediate : Obligations.LoadIndexImmediate := by
  intro nnn s
  have hi : (s.setI (zext16 nnn)).i.toNat = nnn.toNat := by simp
  have hbound : nnn.toNat ≤ 0xFFF := Nat.le_of_lt_succ nnn.isLt
  exact ⟨encodedAs_ldI nnn, _, exec_ldI nnn s, onlyChanges_setI (by simp) s _, hi, hi.le.trans hbound⟩

end Sys2Proof.Machine
end

section
/-! PROOFS. The block store `Fx55` and the block load `Fx65`: what a completed store says of its block, what a load reads, and
that the two pair Vk with I + k alike (rules R250, R260, R262, R263). -/

namespace Sys2Proof.Machine

/-- A block write completes only inside the address space, and then byte k of the list stands at a + k. -/
theorem fits_and_read_of_writeBlock_ok {m m' : Memory} {a : Nat} {bs : List Byte} (hne : bs ≠ [])
    (h : writeBlock m a bs = .ok m') :
    a + bs.length ≤ Config.memSize ∧ ∀ k < bs.length, m'.read (a + k) = bs.getD k 0 := by
  have hfits : a + bs.length ≤ Config.memSize := by
    by_contra hout
    rw [writeBlock_error m a bs hne (Nat.lt_of_not_le hout)] at h
    cases h
  obtain ⟨m₁, hwrite, -, hread⟩ := writeBlock_ok m a bs hfits
  obtain rfl : m₁ = m' := Except.ok.inj (hwrite.symm.trans h)
  refine ⟨hfits, fun k hk => ?_⟩
  rw [hread, if_pos (by omega), Nat.add_sub_cancel_left]

theorem exec_ldMemVx (x : Reg) (s : State) :
    exec (.ldMemVx x) s = orOutOfBounds s (.ldMemVx x) (writeBlock s.mem s.base (s.regsUpTo x)) s.setMem := rfl

theorem exec_ldVxMem (x : Reg) (s : State) :
    exec (.ldVxMem x) s = orOutOfBounds s (.ldVxMem x) (readBlock s.mem s.base (blockLength x)) s.loadRegs := rfl

/-- A store that completes had its whole block in memory, left I alone, and put Vk at I + k. -/
theorem of_exec_ldMemVx_next {x : Reg} {s t : State} (h : exec (.ldMemVx x) s = .next t) :
    s.base + blockLength x ≤ Config.memSize ∧ t.i = s.i ∧
      ∀ k : Reg, k ≤ x → t.mem.read (s.i.toNat + k.val) = s.getV k := by
  rw [exec_ldMemVx] at h
  obtain ⟨m, hwrite, rfl⟩ := orOutOfBounds_eq_next.mp h
  have hne : s.regsUpTo x ≠ [] := List.ne_nil_of_length_eq_add_one (s.length_regsUpTo x)
  obtain ⟨hfits, hread⟩ := fits_and_read_of_writeBlock_ok hne hwrite
  rw [State.length_regsUpTo] at hfits hread
  refine ⟨hfits, s.setMem_i m, fun k hk => ?_⟩
  exact (hread k.val (Nat.lt_succ_of_le hk)).trans (s.getD_regsUpTo x k.val hk)

/-- A load whose block lies in memory completes, with the byte at I + k in Vk. -/
theorem exec_ldVxMem_completes {x : Reg} {u : State} (hfits : u.base + blockLength x ≤ Config.memSize) :
    ∃ w, exec (.ldVxMem x) u = .next w ∧ ∀ k : Reg, k ≤ x → w.getV k = u.mem.read (u.i.toNat + k.val) := by
  rw [exec_ldVxMem, readBlock_ok u.mem u.base _ hfits, orOutOfBounds_ok]
  refine ⟨_, rfl, fun k hk => ?_⟩
  have hlt : k.val < blockLength x := Nat.lt_succ_of_le hk
  simp [State.getV_loadRegs, hlt, State.base]

/-- Settles O50: the completed store shows that the block fits, so the load at the same I completes too, and both pair Vk with
I + k. -/
theorem storeThenLoadRestoresRegisters : Obligations.StoreThenLoadRestoresRegisters := by
  intro x s t u hstore hindex
  obtain ⟨hfits, hkept, hstored⟩ := of_exec_ldMemVx_next hstore
  have hbase : u.base = s.base := congrArg BitVec.toNat (hindex.trans hkept)
  obtain ⟨w, hload, hloaded⟩ := exec_ldVxMem_completes (u := u) (hbase ▸ hfits)
  refine ⟨hstored, w, hload, hloaded, fun hsame k hk => ?_⟩
  calc w.getV k = u.mem.read (u.i.toNat + k.val) := hloaded k hk
    _ = u.mem.read (t.i.toNat + k.val) := by rw [hindex]
    _ = t.mem.read (t.i.toNat + k.val) := hsame k hk
    _ = t.mem.read (s.i.toNat + k.val) := by rw [hkept]
    _ = s.getV k := hstored k hk

end Sys2Proof.Machine
end

section
/-! PROOFS. The initial load of a ROM that does not fit: the run state it leaves, and the record of its fault (rules R273, R295).
The step is that of any halted core, `step_of_halted`. -/

namespace Sys2Proof.Machine

/-- A load that fails leaves the core halted, with the address the load could not reach (rule R295). -/
theorem State.load_run_of_initialLoad_error {font : FontTable} {rom : List Byte} {a : Nat}
    (h : initialLoad font rom = .error a) : (State.load font rom).run = .halted (.loadOutOfBounds a) := by
  simp [State.load, h]

/-- Settles O16: the oversize load leaves the core halted with its fault at the end of memory, and a halted core answers that
fault whatever its script holds. -/
theorem oversizeRomNeverSteps : Obligations.OversizeRomNeverSteps := by
  intro font rom hlong
  have hrun : (State.load font rom).run = .halted (.loadOutOfBounds Config.memSize) :=
    State.load_run_of_initialLoad_error (initialLoad_error font rom hlong)
  refine ⟨.loadOutOfBounds Config.memSize, hrun, rfl, rfl, rfl, rfl, fun script => ?_⟩
  exact step_of_halted hrun

end Sys2Proof.Machine
end

section
/-! PROOFS. The decoder and the encoder as inverses of each other, word by word and byte by byte (rules R102, R106, R110,
R112). -/

namespace Sys2Proof

/-- One case per constructor, grouped by format: the family nibble and the fixed selector choose the arm, and the fields read
back are those the encoder packed. -/
theorem decode_encode (i : Instr) : decode (encode i) = .ok i := by
  cases i with
  | cls | ret => decide
  | jp | call | ldI | jpV0 => simp [encode, decode, family_packA, nnn_packA]
  | seImm | sneImm | ldImm | addImm | rnd => simp [encode, decode, family_packXI, x_packXI, nn_packXI]
  | seReg | sneReg | drw => simp [encode, decode, family_packXYN, x_packXYN, y_packXYN, n_packXYN]
  | ldReg | orReg | andReg | xorReg | addReg | subReg | shr | subnReg | shl =>
    simp [encode, decode, decodeAlu, family_packXYN, x_packXYN, y_packXYN, n_packXYN]
  | skp | sknp => simp [encode, decode, decodeKeys, family_packXI, x_packXI, nn_packXI]
  | ldVxDt | ldVxK | ldDtVx | ldStVx | addI | ldF | ldB | ldMemVx | ldVxMem =>
    simp [encode, decode, decodeMisc, family_packXI, x_packXI, nn_packXI]

theorem decodeBytes_of_decode {hi lo : Byte} {i : Instr} (h : decode (joinBytes hi lo) = .ok i) (rest : List Byte) :
    decodeBytes (hi :: lo :: rest) = .ok (i, rest) := by
  simp [decodeBytes, h]

/-- Settles O2: the word decodes back by its format, and its two bytes join to the word whatever follows them. -/
theorem decodeInvertsEncode : Obligations.DecodeInvertsEncode := by
  intro i rest
  have hword : decode (joinBytes (highByte (encode i)) (lowByte (encode i))) = .ok i := by
    rw [joinBytes_high_low, decode_encode]
  exact ⟨decode_encode i, decodeBytes_of_decode hword rest⟩

/-- A word of formats XI and XK with a known low byte. -/
theorem packXI_of_fields {f : Nat} {w : Opcode} {k : Byte} (hf : f < 16) (hfam : Opcode.family w = BitVec.ofNat 4 f)
    (hk : Opcode.nn w = k) : packXI f (Opcode.x w) k = w := by
  rw [← hk, packXI_fields hf hfam]

/-- A word of formats XY and XYN with a known low nibble. -/
theorem packXYN_of_fields {f : Nat} {w : Opcode} {k : Nibble} (hf : f < 16) (hfam : Opcode.family w = BitVec.ofNat 4 f)
    (hk : Opcode.n w = k) : packXYN f (Opcode.x w) (Opcode.y w) k = w := by
  rw [← hk, packXYN_fields hf hfam]

theorem encode_of_decodeSystem {w : Opcode} {i : Instr} (h : decodeSystem w = .ok i) : encode i = w := by
  unfold decodeSystem at h
  split at h
  · next hw => cases h; exact hw.symm
  · split at h
    · next hw => cases h; exact hw.symm
    · cases h

theorem encode_of_decodeAlu {w : Opcode} {i : Instr} (hfam : Opcode.family w = 0x8#4) (h : decodeAlu w = .ok i) :
    encode i = w := by
  unfold decodeAlu at h
  split at h
  case h_10 => cases h
  all_goals next hn => cases h; exact packXYN_of_fields (by decide) hfam hn

theorem encode_of_decodeKeys {w : Opcode} {i : Instr} (hfam : Opcode.family w = 0xE#4) (h : decodeKeys w = .ok i) :
    encode i = w := by
  unfold decodeKeys at h
  split at h
  case h_3 => cases h
  all_goals next hnn => cases h; exact packXI_of_fields (by decide) hfam hnn

theorem encode_of_decodeMisc {w : Opcode} {i : Instr} (hfam : Opcode.family w = 0xF#4) (h : decodeMisc w = .ok i) :
    encode i = w := by
  unfold decodeMisc at h
  split at h
  case h_10 => cases h
  all_goals next hnn => cases h; exact packXI_of_fields (by decide) hfam hnn

end Sys2Proof
end

section
/-! PROOFS. Every word that decodes is the word of its instruction (rules R102, R106). -/

namespace Sys2Proof

/-- The fifteen families that the decoder names leave the last one. -/
theorem family_eq_F {f : Nibble}
    (h : f ∉ [0x0#4, 0x1#4, 0x2#4, 0x3#4, 0x4#4, 0x5#4, 0x6#4, 0x7#4, 0x8#4, 0x9#4, 0xA#4, 0xB#4, 0xC#4, 0xD#4, 0xE#4]) :
    f = 0xF#4 := by
  revert f; decide

theorem encode_of_decode {w : Opcode} {i : Instr} (h : decode w = .ok i) : encode i = w := by
  unfold decode at h
  split at h
  case h_1 => exact encode_of_decodeSystem h
  case h_9 hf => exact encode_of_decodeAlu hf h
  case h_15 hf => exact encode_of_decodeKeys hf h
  case h_16 => exact encode_of_decodeMisc (family_eq_F (by simp_all)) h
  case h_6 hf | h_10 hf =>
    split at h
    · next hn => cases h; exact packXYN_of_fields (by decide) hf hn
    · cases h
  case h_2 hf | h_3 hf | h_11 hf | h_12 hf => cases h; exact packA_fields (by decide) hf
  case h_14 hf => cases h; exact packXYN_fields (by decide) hf
  case h_4 hf | h_5 hf | h_7 hf | h_8 hf | h_13 hf => cases h; exact packXI_fields (by decide) hf

/-- Settles O3: in each arm of the decoder the word is the packing of its own fields, and the arm's selector is the one the
encoder writes. -/
theorem encodeInvertsDecode : Obligations.EncodeInvertsDecode := fun _ _ => encode_of_decode

end Sys2Proof
end

section
/-! PROOFS. The opcode map of rule R110 against the decoder of rule R106: what a row's match fixes of a word, that a covered word
decodes to the row's instruction, and that no two rows cover one word. -/

namespace Sys2Proof

/-- Settles O5: two patterns that one word meets agree where both masks look, which on the map only a row and itself do. -/
theorem opcodeRowsAreDisjoint : Obligations.OpcodeRowsAreDisjoint := by
  have hmap : ∀ r ∈ opcodeMap, ∀ r' ∈ opcodeMap, r.pattern &&& r'.mask = r'.pattern &&& r.mask → r = r' := by decide
  intro w r r' hr hr' hw hw'
  refine hmap r hr r' hr' ?_
  calc r.pattern &&& r'.mask = w &&& r.mask &&& r'.mask := by rw [hw]
    _ = w &&& r'.mask &&& r.mask := by rw [BitVec.and_assoc, BitVec.and_comm r.mask, BitVec.and_assoc]
    _ = r'.pattern &&& r.mask := by rw [hw']

theorem family_of_and_F000 {w p : Opcode} (f : Nibble) (h : w &&& 0xF000#16 = p)
    (hf : Opcode.family p = f := by decide) : Opcode.family w = f := by
  rw [← hf, ← h]; unfold Opcode.family; ext i hi; interval_cases i <;> simp

theorem family_of_and_F00F {w p : Opcode} (f : Nibble) (h : w &&& 0xF00F#16 = p)
    (hf : Opcode.family p = f := by decide) : Opcode.family w = f := by
  rw [← hf, ← h]; unfold Opcode.family; ext i hi; interval_cases i <;> simp

theorem n_of_and_F00F {w p : Opcode} (k : Nibble) (h : w &&& 0xF00F#16 = p)
    (hk : Opcode.n p = k := by decide) : Opcode.n w = k := by
  rw [← hk, ← h]; unfold Opcode.n; ext i hi; interval_cases i <;> simp

theorem family_of_and_F0FF {w p : Opcode} (f : Nibble) (h : w &&& 0xF0FF#16 = p)
    (hf : Opcode.family p = f := by decide) : Opcode.family w = f := by
  rw [← hf, ← h]; unfold Opcode.family; ext i hi; interval_cases i <;> simp

theorem nn_of_and_F0FF {w p : Opcode} (k : Byte) (h : w &&& 0xF0FF#16 = p)
    (hk : Opcode.nn p = k := by decide) : Opcode.nn w = k := by
  rw [← hk, ← h]; unfold Opcode.nn; ext i hi; interval_cases i <;> simp

/-- The word decodes to an instruction with this mnemonic. -/
def DecodesAs (w : Opcode) (mnemonic : String) : Prop := ∃ i, decode w = .ok i ∧ i.mnemonic = mnemonic

/-- Rows whose match is the whole word or the family nibble, and the two with a low nibble 0. -/
theorem decodesAs_of_mem_families (w : Opcode) :
    ∀ r ∈ opcodeMapFamilies, w &&& r.mask = r.pattern → DecodesAs w r.mnemonic := by
  have hall {p : Opcode} (h : w &&& 0xFFFF#16 = p) : w = p := (BitVec.and_allOnes (x := w)).symm.trans h
  simp only [opcodeMapFamilies, List.forall_mem_cons]
  refine ⟨fun h => ⟨.cls, by rw [hall h]; decide, rfl⟩,
    fun h => ⟨.ret, by rw [hall h]; decide, rfl⟩,
    fun h => ⟨.jp (Opcode.nnn w), by simp [decode, family_of_and_F000 0x1 h], rfl⟩,
    fun h => ⟨.call (Opcode.nnn w), by simp [decode, family_of_and_F000 0x2 h], rfl⟩,
    fun h => ⟨.seImm (Opcode.x w) (Opcode.nn w), by simp [decode, family_of_and_F000 0x3 h], rfl⟩,
    fun h => ⟨.sneImm (Opcode.x w) (Opcode.nn w), by simp [decode, family_of_and_F000 0x4 h], rfl⟩,
    fun h => ⟨.seReg (Opcode.x w) (Opcode.y w), by simp [decode, family_of_and_F00F 0x5 h, n_of_and_F00F 0x0 h], rfl⟩,
    fun h => ⟨.ldImm (Opcode.x w) (Opcode.nn w), by simp [decode, family_of_and_F000 0x6 h], rfl⟩,
    fun h => ⟨.addImm (Opcode.x w) (Opcode.nn w), by simp [decode, family_of_and_F000 0x7 h], rfl⟩,
    fun h => ⟨.sneReg (Opcode.x w) (Opcode.y w), by simp [decode, family_of_and_F00F 0x9 h, n_of_and_F00F 0x0 h], rfl⟩,
    fun h => ⟨.ldI (Opcode.nnn w), by simp [decode, family_of_and_F000 0xA h], rfl⟩,
    fun h => ⟨.jpV0 (Opcode.nnn w), by simp [decode, family_of_and_F000 0xB h], rfl⟩,
    fun h => ⟨.rnd (Opcode.x w) (Opcode.nn w), by simp [decode, family_of_and_F000 0xC h], rfl⟩,
    fun h => ⟨.drw (Opcode.x w) (Opcode.y w) (Opcode.n w), by simp [decode, family_of_and_F000 0xD h], rfl⟩,
    by simp⟩

theorem decode_eq_decodeAlu {w p : Opcode} (h : w &&& 0xF00F#16 = p) (hp : Opcode.family p = 0x8#4 := by decide) :
    decode w = decodeAlu w := by
  simp [decode, family_of_and_F00F 0x8 h hp]

/-- Rows of family 8, whose match is the low nibble beside it. -/
theorem decodesAs_of_mem_alu (w : Opcode) :
    ∀ r ∈ opcodeMapAlu, w &&& r.mask = r.pattern → DecodesAs w r.mnemonic := by
  simp only [opcodeMapAlu, List.forall_mem_cons]
  refine ⟨fun h => ⟨.ldReg (Opcode.x w) (Opcode.y w), by simp [decode_eq_decodeAlu h, decodeAlu, n_of_and_F00F 0x0 h], rfl⟩,
    fun h => ⟨.orReg (Opcode.x w) (Opcode.y w), by simp [decode_eq_decodeAlu h, decodeAlu, n_of_and_F00F 0x1 h], rfl⟩,
    fun h => ⟨.andReg (Opcode.x w) (Opcode.y w), by simp [decode_eq_decodeAlu h, decodeAlu, n_of_and_F00F 0x2 h], rfl⟩,
    fun h => ⟨.xorReg (Opcode.x w) (Opcode.y w), by simp [decode_eq_decodeAlu h, decodeAlu, n_of_and_F00F 0x3 h], rfl⟩,
    fun h => ⟨.addReg (Opcode.x w) (Opcode.y w), by simp [decode_eq_decodeAlu h, decodeAlu, n_of_and_F00F 0x4 h], rfl⟩,
    fun h => ⟨.subReg (Opcode.x w) (Opcode.y w), by simp [decode_eq_decodeAlu h, decodeAlu, n_of_and_F00F 0x5 h], rfl⟩,
    fun h => ⟨.shr (Opcode.x w) (Opcode.y w), by simp [decode_eq_decodeAlu h, decodeAlu, n_of_and_F00F 0x6 h], rfl⟩,
    fun h => ⟨.subnReg (Opcode.x w) (Opcode.y w), by simp [decode_eq_decodeAlu h, decodeAlu, n_of_and_F00F 0x7 h], rfl⟩,
    fun h => ⟨.shl (Opcode.x w) (Opcode.y w), by simp [decode_eq_decodeAlu h, decodeAlu, n_of_and_F00F 0xE h], rfl⟩,
    by simp⟩

theorem decode_eq_decodeKeys {w p : Opcode} (h : w &&& 0xF0FF#16 = p) (hp : Opcode.family p = 0xE#4 := by decide) :
    decode w = decodeKeys w := by
  simp [decode, family_of_and_F0FF 0xE h hp]

theorem decode_eq_decodeMisc {w p : Opcode} (h : w &&& 0xF0FF#16 = p) (hp : Opcode.family p = 0xF#4 := by decide) :
    decode w = decodeMisc w := by
  simp [decode, family_of_and_F0FF 0xF h hp]

/-- Rows of families E and F, whose match is the low byte beside it. -/
theorem decodesAs_of_mem_keysMisc (w : Opcode) :
    ∀ r ∈ opcodeMapKeysMisc, w &&& r.mask = r.pattern → DecodesAs w r.mnemonic := by
  simp only [opcodeMapKeysMisc, List.forall_mem_cons]
  refine ⟨fun h => ⟨.skp (Opcode.x w), by simp [decode_eq_decodeKeys h, decodeKeys, nn_of_and_F0FF 0x9E h], rfl⟩,
    fun h => ⟨.sknp (Opcode.x w), by simp [decode_eq_decodeKeys h, decodeKeys, nn_of_and_F0FF 0xA1 h], rfl⟩,
    fun h => ⟨.ldVxDt (Opcode.x w), by simp [decode_eq_decodeMisc h, decodeMisc, nn_of_and_F0FF 0x07 h], rfl⟩,
    fun h => ⟨.ldVxK (Opcode.x w), by simp [decode_eq_decodeMisc h, decodeMisc, nn_of_and_F0FF 0x0A h], rfl⟩,
    fun h => ⟨.ldDtVx (Opcode.x w), by simp [decode_eq_decodeMisc h, decodeMisc, nn_of_and_F0FF 0x15 h], rfl⟩,
    fun h => ⟨.ldStVx (Opcode.x w), by simp [decode_eq_decodeMisc h, decodeMisc, nn_of_and_F0FF 0x18 h], rfl⟩,
    fun h => ⟨.addI (Opcode.x w), by simp [decode_eq_decodeMisc h, decodeMisc, nn_of_and_F0FF 0x1E h], rfl⟩,
    fun h => ⟨.ldF (Opcode.x w), by simp [decode_eq_decodeMisc h, decodeMisc, nn_of_and_F0FF 0x29 h], rfl⟩,
    fun h => ⟨.ldB (Opcode.x w), by simp [decode_eq_decodeMisc h, decodeMisc, nn_of_and_F0FF 0x33 h], rfl⟩,
    fun h => ⟨.ldMemVx (Opcode.x w), by simp [decode_eq_decodeMisc h, decodeMisc, nn_of_and_F0FF 0x55 h], rfl⟩,
    fun h => ⟨.ldVxMem (Opcode.x w), by simp [decode_eq_decodeMisc h, decodeMisc, nn_of_and_F0FF 0x65 h], rfl⟩,
    by simp⟩

/-- A word that a row of the opcode map covers decodes to the row's instruction. -/
theorem decodesAs_of_mem {w : Opcode} {r : OpcodeRow} (hr : r ∈ opcodeMap) (hw : w &&& r.mask = r.pattern) :
    DecodesAs w r.mnemonic := by
  rw [opcodeMap, List.mem_append, List.mem_append] at hr
  obtain (hr | hr) | hr := hr
  · exact decodesAs_of_mem_families w r hr hw
  · exact decodesAs_of_mem_alu w r hr hw
  · exact decodesAs_of_mem_keysMisc w r hr hw

end Sys2Proof

namespace Sys2Proof.Laws

/-- The family EncodedInRow in one statement: its lemmas, one for each constructor. -/
theorem encodedInRow : ∀ i, EncodedInRow.Statement i
  | .cls => EncodedInRow.cls
  | .ret => EncodedInRow.ret
  | .jp nnn => EncodedInRow.jp nnn
  | .call nnn => EncodedInRow.call nnn
  | .seImm x nn => EncodedInRow.seImm x nn
  | .sneImm x nn => EncodedInRow.sneImm x nn
  | .seReg x y => EncodedInRow.seReg x y
  | .ldImm x nn => EncodedInRow.ldImm x nn
  | .addImm x nn => EncodedInRow.addImm x nn
  | .ldReg x y => EncodedInRow.ldReg x y
  | .orReg x y => EncodedInRow.orReg x y
  | .andReg x y => EncodedInRow.andReg x y
  | .xorReg x y => EncodedInRow.xorReg x y
  | .addReg x y => EncodedInRow.addReg x y
  | .subReg x y => EncodedInRow.subReg x y
  | .shr x y => EncodedInRow.shr x y
  | .subnReg x y => EncodedInRow.subnReg x y
  | .shl x y => EncodedInRow.shl x y
  | .sneReg x y => EncodedInRow.sneReg x y
  | .ldI nnn => EncodedInRow.ldI nnn
  | .jpV0 nnn => EncodedInRow.jpV0 nnn
  | .rnd x nn => EncodedInRow.rnd x nn
  | .drw x y n => EncodedInRow.drw x y n
  | .skp x => EncodedInRow.skp x
  | .sknp x => EncodedInRow.sknp x
  | .ldVxDt x => EncodedInRow.ldVxDt x
  | .ldVxK x => EncodedInRow.ldVxK x
  | .ldDtVx x => EncodedInRow.ldDtVx x
  | .ldStVx x => EncodedInRow.ldStVx x
  | .addI x => EncodedInRow.addI x
  | .ldF x => EncodedInRow.ldF x
  | .ldB x => EncodedInRow.ldB x
  | .ldMemVx x => EncodedInRow.ldMemVx x
  | .ldVxMem x => EncodedInRow.ldVxMem x

end Sys2Proof.Laws

namespace Sys2Proof

/-- Settles O4: a covered word decodes to its row's instruction; and a word that decodes is the encoder's, which a row with the
instruction's mnemonic covers, the only row that bears it. -/
theorem decoderFollowsOpcodeMap : Obligations.DecoderFollowsOpcodeMap := by
  have hinj : ∀ r ∈ opcodeMap, ∀ r' ∈ opcodeMap, r.mnemonic = r'.mnemonic → r = r' := by decide
  intro w r hr
  refine ⟨decodesAs_of_mem hr, ?_⟩
  rintro ⟨i, hdecode, hmnemonic⟩
  obtain ⟨r', hr', hm, hcovers⟩ := Laws.encodedInRow i
  obtain rfl : r' = r := hinj r' hr' r hr (hm.trans hmnemonic)
  rw [encode_of_decode hdecode] at hcovers
  exact beq_iff_eq.mp hcovers

end Sys2Proof
end

section
/-! PROOFS. The words that the decoder rejects, family by family (rules R106, R107). -/

namespace Sys2Proof

theorem decodeSystem_eq_error_iff (w : Opcode) :
    decodeSystem w = .error (.unknown w) ↔ w ≠ 0x00E0 ∧ w ≠ 0x00EE := by
  unfold decodeSystem
  split
  · next h => simp [h]
  · next h0 => split <;> simp_all

theorem decodeAlu_eq_error_iff (w : Opcode) :
    decodeAlu w = .error (.unknown w) ↔ w.toNat % 16 ∈ [8, 9, 0xA, 0xB, 0xC, 0xD, 0xF] := by
  rw [← Opcode.n_toNat]
  unfold decodeAlu
  split
  case h_10 => simp_all [BitVec.toNat_eq]; omega
  all_goals next h => simp [h]

theorem decodeKeys_eq_error_iff (w : Opcode) :
    decodeKeys w = .error (.unknown w) ↔ w.toNat % 256 ∉ [0x9E, 0xA1] := by
  rw [← Opcode.nn_toNat]
  unfold decodeKeys
  split
  case h_3 => simp_all [BitVec.toNat_eq]
  all_goals next h => simp [h]

theorem decodeMisc_eq_error_iff (w : Opcode) :
    decodeMisc w = .error (.unknown w) ↔
      w.toNat % 256 ∉ [0x07, 0x0A, 0x15, 0x18, 0x1E, 0x29, 0x33, 0x55, 0x65] := by
  rw [← Opcode.nn_toNat]
  unfold decodeMisc
  split
  case h_10 => simp_all [BitVec.toNat_eq]
  all_goals next h => simp [h]

/-- Settles O6: in each family the words left out by the decoder's selector are those of the list. -/
theorem undefinedWordsAreExactly : Obligations.UndefinedWordsAreExactly := by
  intro w
  rw [← Opcode.family_toNat]
  unfold decode
  split
  case h_1 h => simp [h, decodeSystem_eq_error_iff]
  case h_9 h => simp [h, decodeAlu_eq_error_iff]
  case h_15 h => simp [h, decodeKeys_eq_error_iff]
  case h_16 => simp [family_eq_F (f := Opcode.family w) (by simp_all), decodeMisc_eq_error_iff]
  case h_6 h | h_10 h => rw [← Opcode.n_toNat]; split <;> simp_all [BitVec.toNat_eq]
  all_goals next h => simp [h]

/-- Settles O1: nine words of the map, each decoded. -/
theorem wordsOfTheMapDecode : Obligations.WordsOfTheMapDecode := by
  unfold Obligations.WordsOfTheMapDecode
  decide

end Sys2Proof
end

section
/-! PROOFS. The instructions by what they can answer: one equation for each that always completes, one inversion for each that can
fault (rule R136), and the frames of the writes that they are made of. -/

namespace Sys2Proof.Machine

/-! ### Frames of the remaining writes -/

variable {parts : List Part}

theorem onlyChanges_setMem (h : .mem ∈ parts) (s : State) (m : Memory) : OnlyChanges parts s (s.setMem m) := by
  intro p hp
  cases p with
  | mem => exact absurd h hp
  | regs => exact fun _ => rfl
  | index | pc | stack | dt | st | disp | run | key | script | draws => rfl

theorem onlyChanges_loadRegs (h : .regs ∈ parts) (s : State) (bs : List Byte) : OnlyChanges parts s (s.loadRegs bs) := by
  intro p hp
  cases p with
  | regs => exact absurd h hp
  | mem => exact fun _ => rfl
  | index | pc | stack | dt | st | disp | run | key | script | draws => rfl

theorem onlyChanges_drawn (h : .draws ∈ parts) (s : State) : OnlyChanges parts s s.drawn := by
  intro p hp
  cases p with
  | draws => exact absurd h hp
  | mem | regs => exact fun _ => rfl
  | index | pc | stack | dt | st | disp | run | key | script => rfl

theorem onlyChanges_alu (h : .regs ∈ parts) (s : State) (op : AluOp) (x y : Reg) :
    OnlyChanges parts s (s.alu op x y) := by
  unfold State.alu
  cases aluFlag op (s.getV x) (s.getV y) with
  | none => exact onlyChanges_setV h s x _
  | some f => exact (onlyChanges_setV h s x _).trans (onlyChanges_setV h _ Reg.vf f)

theorem onlyChanges_drawSprite (hd : .disp ∈ parts) (hr : .regs ∈ parts) (s : State) (x y : Reg) (rows : List Byte) :
    OnlyChanges parts s (s.drawSprite x y rows) :=
  (onlyChanges_setDisp hd s _).trans (onlyChanges_setV hr _ Reg.vf _)

/-! ### Instructions that always complete -/

theorem exec_jp (nnn : Addr12) (s : State) : exec (.jp nnn) s = .next (s.setPc (zext16 nnn)) := rfl

/-- STACK_DEPTH does not bound the stack on this hardware (rule R44), so that a call completes. -/
theorem exec_call (nnn : Addr12) (s : State) :
    exec (.call nnn) s = .next ((s.setStack (s.pc :: s.stack)).setPc (zext16 nnn)) := rfl

theorem exec_jpV0 (nnn : Addr12) (s : State) : exec (.jpV0 nnn) s = .next (s.setPc (offsetTarget nnn (s.getV Reg.v0))) := rfl

theorem exec_addImm (x : Reg) (nn : Byte) (s : State) : exec (.addImm x nn) s = .next (s.setV x (s.getV x + nn)) := rfl

theorem exec_ldReg (x y : Reg) (s : State) : exec (.ldReg x y) s = .next (s.alu .set x y) := rfl

theorem exec_orReg (x y : Reg) (s : State) : exec (.orReg x y) s = .next (s.alu .or x y) := rfl

theorem exec_andReg (x y : Reg) (s : State) : exec (.andReg x y) s = .next (s.alu .and x y) := rfl

theorem exec_xorReg (x y : Reg) (s : State) : exec (.xorReg x y) s = .next (s.alu .xor x y) := rfl

theorem exec_addReg (x y : Reg) (s : State) : exec (.addReg x y) s = .next (s.alu .add x y) := rfl

theorem exec_subReg (x y : Reg) (s : State) : exec (.subReg x y) s = .next (s.alu .sub x y) := rfl

theorem exec_subnReg (x y : Reg) (s : State) : exec (.subnReg x y) s = .next (s.alu .subn x y) := rfl

theorem exec_shr (x y : Reg) (s : State) : exec (.shr x y) s = .next (s.alu .shr x y) := rfl

theorem exec_shl (x y : Reg) (s : State) : exec (.shl x y) s = .next (s.alu .shl x y) := rfl

theorem exec_rnd (x : Reg) (nn : Byte) (s : State) :
    exec (.rnd x nn) s = .next (s.drawn.setV x (Config.randomByte s.draws &&& nn)) := rfl

theorem exec_ldF (x : Reg) (s : State) : exec (.ldF x) s = .next (s.setI (glyphAddress fx29Mask (s.getV x))) := rfl

/-! ### The wait for a key, which always completes, in one of two ways (rule R234) -/

theorem exec_ldVxK_of_released {x : Reg} {s : State} (h : ∀ k : Key, s.key[k] = false) :
    exec (.ldVxK x) s = .next (s.setPc (s.pc - 2)) := by
  change execLdVxK x s = _
  rw [execLdVxK, pressedKeys_eq_nil.mpr h]

theorem exec_ldVxK_of_pressed (x : Reg) {s : State} (h : ∃ k : Key, s.key[k] = true) :
    ∃ k : Key, s.key[k] = true ∧ exec (.ldVxK x) s = .next (s.drawn.setV x (keyByte k)) := by
  obtain ⟨j, hj⟩ := h
  cases hp : pressedKeys s.key with
  | nil => simp [pressedKeys_eq_nil.mp hp j] at hj
  | cons first rest =>
    refine ⟨chooseKey first rest (Config.keyChoice s.draws), ?_, ?_⟩
    · exact mem_pressedKeys.mp (hp ▸ chooseKey_mem first rest _)
    · change execLdVxK x s = _
      rw [execLdVxK, hp]

/-- What a wait for a key did: PC was rewound with no key down, or a key that is down was captured. -/
theorem exec_ldVxK_eq_next {x : Reg} {s t : State} (h : exec (.ldVxK x) s = .next t) :
    (∀ k : Key, s.key[k] = false) ∧ t = s.setPc (s.pc - 2) ∨
      ∃ k : Key, s.key[k] = true ∧ t = s.drawn.setV x (keyByte k) := by
  by_cases hk : ∃ k : Key, s.key[k] = true
  · obtain ⟨k, hdown, hexec⟩ := exec_ldVxK_of_pressed x hk
    exact .inr ⟨k, hdown, by simpa [hexec] using h.symm⟩
  · have hoff : ∀ k : Key, s.key[k] = false := by simpa using hk
    exact .inl ⟨hoff, by simpa [exec_ldVxK_of_released hoff] using h.symm⟩

/-! ### Blocks that are read -/

/-- The n bytes at an address and the addresses after it. -/
def bytesAt (m : Memory) (a n : Nat) : List Byte := (List.range n).map fun k => m.read (a + k)

@[simp] theorem length_bytesAt (m : Memory) (a n : Nat) : (bytesAt m a n).length = n := by simp [bytesAt]

/-- A block of no bytes is read at any address; any other must lie in memory. -/
theorem readBlock_eq_bytesAt (m : Memory) {a n : Nat} (h : n = 0 ∨ a + n ≤ 4096) :
    readBlock m a n = .ok (bytesAt m a n) := by
  obtain rfl | h := h
  · rfl
  · exact readBlock_ok m a n h

/-- What a block read that succeeds did. -/
theorem of_readBlock_ok {m : Memory} {a n : Nat} {bs : List Byte} (h : readBlock m a n = .ok bs) :
    (n = 0 ∨ a + n ≤ 4096) ∧ bs = bytesAt m a n := by
  by_cases hfits : n = 0 ∨ a + n ≤ 4096
  · rw [readBlock_eq_bytesAt m hfits] at h
    exact ⟨hfits, (Except.ok.inj h).symm⟩
  · rw [readBlock_error m a n (by omega) (by rw [memSize_eq]; omega)] at h
    cases h

/-! ### Instructions that can fault -/

theorem exec_drw (x y : Reg) (n : Nibble) (s : State) :
    exec (.drw x y n) s = orOutOfBounds s (.drw x y n) (readBlock s.mem s.base n.toNat) (s.drawSprite x y) := rfl

theorem exec_ldB (x : Reg) (s : State) :
    exec (.ldB x) s = orOutOfBounds s (.ldB x) (writeBlock s.mem s.base (bcdDigits (s.getV x))) s.setMem := rfl

/-- A return that completes took the top entry. -/
theorem exec_ret_eq_next {s t : State} (h : exec .ret s = .next t) :
    ∃ w rest, s.stack = w :: rest ∧ t = (s.setStack rest).setPc w := by
  rw [exec_ret] at h
  cases hs : s.stack with
  | nil => simp [execRet_of_nil hs] at h
  | cons w rest => exact ⟨w, rest, rfl, by simpa [execRet_of_cons hs] using h.symm⟩

theorem exec_addI_of_le {x : Reg} {s : State} (h : s.i.toNat + (s.getV x).toNat ≤ 0xFFFF) :
    exec (.addI x) s = .next ((s.setI (BitVec.ofNat 16 (s.i.toNat + (s.getV x).toNat))).setV Reg.vf
      (addressRangeFlag (s.i.toNat + (s.getV x).toNat))) :=
  if_neg (Nat.not_lt.mpr h)

theorem exec_addI_of_gt {x : Reg} {s : State} (h : 0xFFFF < s.i.toNat + (s.getV x).toNat) :
    exec (.addI x) s = .fault (.indexOverflow (s.pc - 2) (encode (.addI x))) :=
  if_pos h

/-- An addition to I that completes wrote I and then VF. -/
theorem exec_addI_eq_next {x : Reg} {s t : State} (h : exec (.addI x) s = .next t) :
    ∃ w f, t = (s.setI w).setV Reg.vf f := by
  by_cases hsum : s.i.toNat + (s.getV x).toNat ≤ 0xFFFF
  · exact ⟨_, _, by simpa [exec_addI_of_le hsum] using h.symm⟩
  · simp [exec_addI_of_gt (Nat.lt_of_not_le hsum)] at h

/-- Vx names the key k (rule R230). -/
theorem keyIndex_of_eq {b : Byte} {k : Key} (h : b.toNat = k.val) : keyIndex b = some k := by
  rw [keyIndex_of_lt (h ▸ k.isLt)]
  exact congrArg some (Fin.ext h)

theorem exec_skp (x : Reg) (s : State) : exec (.skp x) s = keySkip (.skp x) x (fun down => down) s := rfl

theorem exec_sknp (x : Reg) (s : State) : exec (.sknp x) s = keySkip (.sknp x) x (fun down => !down) s := rfl

theorem keySkip_of_key (i : Instr) {x : Reg} (cond : Bool → Bool) {s : State} {k : Key} (h : (s.getV x).toNat = k.val) :
    keySkip i x cond s = .next (s.skipIf (cond s.key[k])) := by
  rw [keySkip, keyIndex_of_eq h]

theorem keySkip_of_gt (i : Instr) {x : Reg} (cond : Bool → Bool) {s : State} (h : 15 < (s.getV x).toNat) :
    keySkip i x cond s = .fault (.keyIndexOutOfRange (s.pc - 2) (encode i) (s.getV x)) := by
  rw [keySkip, keyIndex_of_ge h]; rfl

/-- A key skip that completes looked up the key that Vx names. -/
theorem keySkip_eq_next {i : Instr} {x : Reg} {cond : Bool → Bool} {s t : State} (h : keySkip i x cond s = .next t) :
    ∃ k : Key, k.val = (s.getV x).toNat ∧ t = s.skipIf (cond s.key[k]) := by
  by_cases hv : 15 < (s.getV x).toNat
  · simp [keySkip_of_gt i cond hv] at h
  · have hlt : (s.getV x).toNat < 16 := by omega
    rw [keySkip_of_key i cond (k := ⟨_, hlt⟩) rfl] at h
    cases h
    exact ⟨⟨_, hlt⟩, rfl, rfl⟩

theorem exec_skp_eq_next {x : Reg} {s t : State} (h : exec (.skp x) s = .next t) :
    ∃ k : Key, k.val = (s.getV x).toNat ∧ t = s.skipIf s.key[k] :=
  keySkip_eq_next (cond := fun down => down) h

theorem exec_sknp_eq_next {x : Reg} {s t : State} (h : exec (.sknp x) s = .next t) :
    ∃ k : Key, k.val = (s.getV x).toNat ∧ t = s.skipIf !s.key[k] :=
  keySkip_eq_next (cond := fun down => !down) h

end Sys2Proof.Machine
end

section
/-! PROOFS. What every instruction changes: the parts of the state, and the registers (rules R33, R55). -/

namespace Sys2Proof.Machine

/-- The frame of every instruction, from the frames of the writes that it is made of. -/
theorem exec_onlyChanges {i : Instr} {s t : State} (h : exec i s = .next t) : OnlyChanges (changesOf i) s t := by
  cases i with
  | cls => cases h; exact onlyChanges_setDisp (by simp [changesOf]) s _
  | jp | jpV0 => cases h; exact onlyChanges_setPc (by simp [changesOf]) s _
  | seImm | sneImm | seReg | sneReg => cases h; exact onlyChanges_skipIf (by simp [changesOf]) s _
  | ldImm | addImm | ldVxDt => cases h; exact onlyChanges_setV (by simp [changesOf]) s _ _
  | ldReg | orReg | andReg | xorReg | addReg | subReg | shr | subnReg | shl =>
    cases h; exact onlyChanges_alu (by simp [changesOf]) s _ _ _
  | ldI | ldF => cases h; exact onlyChanges_setI (by simp [changesOf]) s _
  | ldDtVx => cases h; exact onlyChanges_setDt (by simp [changesOf]) s _
  | ldStVx => cases h; exact onlyChanges_setSt (by simp [changesOf]) s _
  | call =>
    cases h
    exact (onlyChanges_setStack (by simp [changesOf]) s _).trans (onlyChanges_setPc (by simp [changesOf]) _ _)
  | rnd =>
    cases h
    exact (onlyChanges_drawn (by simp [changesOf]) s).trans (onlyChanges_setV (by simp [changesOf]) _ _ _)
  | ret =>
    obtain ⟨w, rest, -, rfl⟩ := exec_ret_eq_next h
    exact (onlyChanges_setStack (by simp [changesOf]) s _).trans (onlyChanges_setPc (by simp [changesOf]) _ _)
  | addI x =>
    obtain ⟨w, f, rfl⟩ := exec_addI_eq_next h
    exact (onlyChanges_setI (by simp [changesOf]) s _).trans (onlyChanges_setV (by simp [changesOf]) _ _ _)
  | skp =>
    obtain ⟨k, -, rfl⟩ := exec_skp_eq_next h
    exact onlyChanges_skipIf (by simp [changesOf]) s _
  | sknp =>
    obtain ⟨k, -, rfl⟩ := exec_sknp_eq_next h
    exact onlyChanges_skipIf (by simp [changesOf]) s _
  | ldVxK x =>
    obtain ⟨-, rfl⟩ | ⟨k, -, rfl⟩ := exec_ldVxK_eq_next h
    · exact onlyChanges_setPc (by simp [changesOf]) s _
    · exact (onlyChanges_drawn (by simp [changesOf]) s).trans (onlyChanges_setV (by simp [changesOf]) _ _ _)
  | drw x y n =>
    obtain ⟨rows, -, rfl⟩ := orOutOfBounds_eq_next.mp h
    exact onlyChanges_drawSprite (by simp [changesOf]) (by simp [changesOf]) s _ _ _
  | ldB | ldMemVx =>
    obtain ⟨m, -, rfl⟩ := orOutOfBounds_eq_next.mp h
    exact onlyChanges_setMem (by simp [changesOf]) s m
  | ldVxMem =>
    obtain ⟨bs, -, rfl⟩ := orOutOfBounds_eq_next.mp h
    exact onlyChanges_loadRegs (by simp [changesOf]) s bs

/-- An instruction whose answer is known completes, with the frame that every instruction has. -/
theorem completes_of_exec {i : Instr} {s t : State} {P : State → Prop} (h : exec i s = .next t) (hP : P t) :
    Completes i s (changesOf i) P :=
  ⟨t, h, exec_onlyChanges h, hP⟩

/-- The registers that an instruction does not write, from the frame where it writes none, else from the read after the write. -/
theorem exec_getV_of_not_writesReg {i : Instr} {s t : State} (h : exec i s = .next t) {r : Reg}
    (hr : writesReg i r = false) : t.getV r = s.getV r := by
  cases i with
  | ldImm | addImm | rnd | ldVxDt =>
    cases h
    exact State.getV_setV_of_ne _ (by simpa [writesReg] using hr) _
  | ldReg | orReg | andReg | xorReg =>
    cases h
    have hx := by simpa [writesReg] using hr
    simp [State.getV_alu, aluFlag, hx]
  | addReg | subReg | shr | subnReg | shl =>
    cases h
    obtain ⟨hx, hvf⟩ := by simpa [writesReg] using hr
    simp [State.getV_alu, aluFlag, hx, hvf]
  | drw x y n =>
    obtain ⟨rows, -, rfl⟩ := orOutOfBounds_eq_next.mp h
    exact State.getV_setV_of_ne _ (by simpa [writesReg] using hr) _
  | addI x =>
    obtain ⟨w, f, rfl⟩ := exec_addI_eq_next h
    exact State.getV_setV_of_ne _ (by simpa [writesReg] using hr) _
  | ldVxK x =>
    obtain ⟨-, rfl⟩ | ⟨k, -, rfl⟩ := exec_ldVxK_eq_next h
    · rfl
    · exact State.getV_setV_of_ne _ (by simpa [writesReg] using hr) _
  | ldVxMem x =>
    obtain ⟨bs, hread, rfl⟩ := orOutOfBounds_eq_next.mp h
    have hpast : ¬ r.val < bs.length := by
      rw [(of_readBlock_ok hread).2, length_bytesAt, blockLength]
      have : x.val < r.val := by simpa [writesReg] using hr
      omega
    rw [State.getV_loadRegs, if_neg hpast]
  | cls | ret | jp | call | seImm | sneImm | seReg | sneReg | ldI | jpV0 | skp | sknp | ldDtVx | ldStVx | ldF | ldB | ldMemVx =>
    exact exec_onlyChanges h .regs (by simp [changesOf]) r

/-- Settles O51. -/
theorem instructionsKeepTheirFrame : Obligations.InstructionsKeepTheirFrame :=
  fun _ _ _ h => ⟨exec_onlyChanges h, fun _ hr => exec_getV_of_not_writesReg h hr⟩

theorem offsetTarget_toNat (nnn : Addr12) (b : Byte) : (offsetTarget nnn b).toNat = nnn.toNat + b.toNat := by
  have : (b.setWidth 16).toNat = b.toNat := BitVec.toNat_setWidth_of_le (by decide)
  rw [offsetTarget, BitVec.toNat_add, zext16_toNat, this]
  omega

/-- Settles O52: the instructions that leave PC alone by their frame, the others by the write of PC that they are. -/
theorem pcFollowsTheTable : Obligations.PcFollowsTheTable := by
  intro i s t h
  cases i with
  | jp | call => cases h; exact zext16_toNat _
  | jpV0 => cases h; exact offsetTarget_toNat _ _
  | seImm | seReg => cases h; simp [PcFollows]
  | sneImm | sneReg => cases h; simp [PcFollows]
  | ret =>
    obtain ⟨w, rest, hstack, rfl⟩ := exec_ret_eq_next h
    simp [PcFollows, hstack]
  | skp x =>
    obtain ⟨k, hk, rfl⟩ := exec_skp_eq_next h
    exact ⟨k, hk, by simp⟩
  | sknp x =>
    obtain ⟨k, hk, rfl⟩ := exec_sknp_eq_next h
    exact ⟨k, hk, by cases hd : s.key[k] <;> simp⟩
  | ldVxK x =>
    obtain ⟨hoff, rfl⟩ | ⟨k, hdown, rfl⟩ := exec_ldVxK_eq_next h
    · simp [PcFollows, hoff]
    · exact (if_pos ⟨k, hdown⟩).symm
  | cls | ldImm | addImm | ldReg | orReg | andReg | xorReg | addReg | subReg | shr | subnReg | shl | ldI | rnd | drw |
    ldVxDt | ldDtVx | ldStVx | addI | ldF | ldB | ldMemVx | ldVxMem =>
    exact exec_onlyChanges h .pc (by simp [changesOf])

end Sys2Proof.Machine
end

section
/-! PROOFS. The outcomes of every instruction: it completes, or raises a fatal condition of its own with its address and its
opcode, and nothing is refused (rules R109, R270, R271, R273). -/

namespace Sys2Proof.Machine

/-- The outcome is a next state, or a fatal condition that the instruction may raise, recorded as rule R273 says. -/
def OwnOutcome (i : Instr) (s : State) : Result → Prop
  | .next _ => True
  | .fault f => mayRaise i f = true ∧ f.pc? = some (s.pc - 2) ∧ f.opcode? = some (encode i)
  | .refused _ => False

theorem ownOutcome_orOutOfBounds {α : Type} {i : Instr} (s : State) (access : Except Nat α) (go : α → State)
    (hi : ∀ pc op a, mayRaise i (.outOfBounds pc op a) = true) : OwnOutcome i s (orOutOfBounds s i access go) := by
  cases access with
  | ok a => trivial
  | error a => exact ⟨hi _ _ _, rfl, rfl⟩

theorem ownOutcome_keySkip {i : Instr} (x : Reg) (cond : Bool → Bool) (s : State)
    (hi : ∀ pc op b, mayRaise i (.keyIndexOutOfRange pc op b) = true) : OwnOutcome i s (keySkip i x cond s) := by
  unfold keySkip
  cases keyIndex (s.getV x) with
  | none => exact ⟨hi _ _ _, rfl, rfl⟩
  | some k => trivial

theorem exec_ownOutcome (i : Instr) (s : State) : OwnOutcome i s (exec i s) := by
  cases i with
  | drw | ldB | ldMemVx | ldVxMem => exact ownOutcome_orOutOfBounds s _ _ fun _ _ _ => rfl
  | skp x => exact ownOutcome_keySkip x (fun down => down) s fun _ _ _ => rfl
  | sknp x => exact ownOutcome_keySkip x (fun down => !down) s fun _ _ _ => rfl
  | ret =>
    rw [exec_ret]
    cases hs : s.stack with
    | nil => rw [execRet_of_nil hs]; exact ⟨rfl, rfl, rfl⟩
    | cons w rest => rw [execRet_of_cons hs]; trivial
  | addI x =>
    by_cases hsum : s.i.toNat + (s.getV x).toNat ≤ 0xFFFF
    · rw [exec_addI_of_le hsum]; trivial
    · rw [exec_addI_of_gt (Nat.lt_of_not_le hsum)]; exact ⟨rfl, rfl, rfl⟩
  | ldVxK x =>
    by_cases hk : ∃ k : Key, s.key[k] = true
    · obtain ⟨k, -, hexec⟩ := exec_ldVxK_of_pressed x hk
      rw [hexec]; trivial
    · rw [exec_ldVxK_of_released (by simpa using hk)]; trivial
  | cls | jp | call | seImm | sneImm | seReg | ldImm | addImm | ldReg | orReg | andReg | xorReg | addReg | subReg | shr |
    subnReg | shl | sneReg | ldI | jpV0 | rnd | ldVxDt | ldDtVx | ldStVx | ldF => trivial

/-- Settles O53: the outcome of every instruction is of its own kind, and this one is a fault. -/
theorem instructionsRaiseOnlyTheirFaults : Obligations.InstructionsRaiseOnlyTheirFaults := by
  intro i s f h
  have hown := exec_ownOutcome i s
  rwa [h] at hown

theorem instructionStep_ne_refused (s : State) (r : Refusal) : instructionStep s ≠ .refused r := by
  intro h
  unfold instructionStep at h
  split at h
  · cases h
  · next op u _ =>
    split at h
    · cases h
    · next i _ =>
      have hown := exec_ownOutcome i u
      rwa [h] at hown

/-- Settles O13: a step is a fault, a tick, or an instruction step, whose instruction refuses nothing. -/
theorem nothingIsRefused : Obligations.NothingIsRefused := by
  intro s r h
  unfold step at h
  split at h
  · cases h
  · split at h
    · cases h
    · exact instructionStep_ne_refused _ r h

end Sys2Proof.Machine
end

section
/-! PROOFS. The invariant of every run: canonical memory, and the bounds of rule R39 on PC and the stack. -/

namespace Sys2Proof.Machine

/-! ### Taking a turn keeps every part but the script and the draw counter -/

@[simp] theorem State.takeTurn_mem (s : State) : s.takeTurn.2.mem = s.mem := by rw [s.takeTurn_snd]
@[simp] theorem State.takeTurn_pc (s : State) : s.takeTurn.2.pc = s.pc := by rw [s.takeTurn_snd]
@[simp] theorem State.takeTurn_stack (s : State) : s.takeTurn.2.stack = s.stack := by rw [s.takeTurn_snd]
@[simp] theorem State.takeTurn_dt (s : State) : s.takeTurn.2.dt = s.dt := by rw [s.takeTurn_snd]
@[simp] theorem State.takeTurn_st (s : State) : s.takeTurn.2.st = s.st := by rw [s.takeTurn_snd]
@[simp] theorem State.takeTurn_run (s : State) : s.takeTurn.2.run = s.run := by rw [s.takeTurn_snd]

/-! ### Every instruction keeps the invariant -/

/-- Memory changes only by a block write, which keeps the canonical form. -/
theorem exec_mem_wf {i : Instr} {s t : State} (h : exec i s = .next t) (hwf : s.mem.wf = true) : t.mem.wf = true := by
  cases i with
  | ldB | ldMemVx =>
    obtain ⟨m, hwrite, rfl⟩ := orOutOfBounds_eq_next.mp h
    exact writeBlock_wf hwrite hwf
  | drw | ldVxMem => obtain ⟨_, -, rfl⟩ := orOutOfBounds_eq_next.mp h; exact hwf
  | ret => obtain ⟨_, _, -, rfl⟩ := exec_ret_eq_next h; exact hwf
  | addI => obtain ⟨_, _, rfl⟩ := exec_addI_eq_next h; exact hwf
  | skp => obtain ⟨_, -, rfl⟩ := exec_skp_eq_next h; simpa using hwf
  | sknp => obtain ⟨_, -, rfl⟩ := exec_sknp_eq_next h; simpa using hwf
  | ldVxK => obtain ⟨-, rfl⟩ | ⟨_, -, rfl⟩ := exec_ldVxK_eq_next h <;> exact hwf
  | cls | jp | call | seImm | sneImm | seReg | ldImm | addImm | ldReg | orReg | andReg | xorReg | addReg | subReg | shr |
    subnReg | shl | sneReg | ldI | jpV0 | rnd | ldVxDt | ldDtVx | ldStVx | ldF => cases h; simpa using hwf

/-- Rule R37's table in five lines: PC stays, skips, goes back, takes a return address, or takes a target of at most
0xFFF + 0xFF. -/
theorem exec_pc_cases {i : Instr} {s t : State} (h : exec i s = .next t) :
    t.pc = s.pc ∨ t.pc = s.pc + 2 ∨ t.pc = s.pc - 2 ∨ t.pc ∈ s.stack ∨ t.pc.toNat ≤ 0x10FE := by
  have hpc := pcFollowsTheTable i s t h
  cases i with
  | jp nnn | call nnn =>
    have htarget : t.pc.toNat = nnn.toNat := hpc
    omega
  | jpV0 nnn =>
    have htarget : t.pc.toNat = nnn.toNat + (s.getV 0).toNat := hpc
    omega
  | ret => exact .inr (.inr (.inr (.inl (List.mem_of_head? hpc))))
  | seImm | sneImm | seReg | sneReg =>
    simp only [PcFollows] at hpc
    split at hpc <;> simp [hpc]
  | skp | sknp =>
    obtain ⟨k, -, hpc⟩ := hpc
    split at hpc <;> simp [hpc]
  | ldVxK =>
    simp only [PcFollows] at hpc
    split at hpc <;> simp [hpc]
  | cls | ldImm | addImm | ldReg | orReg | andReg | xorReg | addReg | subReg | shr | subnReg | shl | ldI | rnd | drw |
    ldVxDt | ldDtVx | ldStVx | addI | ldF | ldB | ldMemVx | ldVxMem => exact .inl hpc

/-- A return address is one that was on the stack, or the PC behind a call. -/
theorem exec_mem_stack {i : Instr} {s t : State} (h : exec i s = .next t) {w : Word} (hw : w ∈ t.stack) :
    w = s.pc ∨ w ∈ s.stack := by
  cases i with
  | call => cases h; simpa using hw
  | ret =>
    obtain ⟨top, rest, hstack, rfl⟩ := exec_ret_eq_next h
    exact .inr (hstack ▸ List.mem_cons_of_mem top hw)
  | _ =>
    have hsame : t.stack = s.stack := exec_onlyChanges h .stack (by simp [changesOf])
    exact .inr (hsame ▸ hw)

/-- After a fetch in bounds PC is between 2 and 0x1000, from where no instruction's PC computation wraps. -/
theorem exec_pcBounded {i : Instr} {s t : State} (h : exec i s = .next t) (hlow : 2 ≤ s.pc.toNat)
    (hhigh : s.pc.toNat ≤ 0x1000) (hstack : ∀ w ∈ s.stack, w.toNat ≤ 0x1000) : t.PcBounded := by
  constructor
  · obtain hpc | hpc | hpc | hpc | hpc := exec_pc_cases h
    · rw [hpc]; omega
    · rw [hpc]; bv_omega
    · rw [hpc]; bv_omega
    · exact (hstack _ hpc).trans (by decide)
    · exact hpc
  · intro w hw
    obtain rfl | hw := exec_mem_stack h hw
    · exact hhigh
    · exact hstack w hw

/-- Settles O58: a tick touches none of the three; an instruction starts with PC between 2 and 0x1000, from where memory,
PC and the stack stay in their bounds. -/
theorem stepKeepsTheInvariant : Obligations.StepKeepsTheInvariant := by
  rintro s t ⟨hwf, hpc, hstack⟩ h
  obtain ⟨-, ⟨-, rfl⟩ | ⟨k, -, hstep⟩⟩ := step_eq_next h
  · exact ⟨by simpa using hwf, by simpa using hpc, by simpa using hstack⟩
  · obtain ⟨hfetch, i, -, hexec⟩ := instructionStep_eq_next hstep
    have hfetch : s.pc.toNat + 1 < 4096 := by simpa using hfetch
    refine ⟨exec_mem_wf hexec (by simpa using hwf), exec_pcBounded hexec ?_ ?_ (by simpa using hstack)⟩
    · simp; omega
    · simp; omega

/-! ### The start states -/

theorem State.pcBounded_reset : State.reset.PcBounded := ⟨by decide, by simp [State.reset]⟩

/-- Settles O57: memory lists no cell, PC is 0x200 and the stack is empty. -/
theorem resetMeetsTheInvariant : Obligations.ResetMeetsTheInvariant := ⟨Memory.wf_nil, State.pcBounded_reset⟩

/-- A ROM that fits leaves the state after reset, but for canonical memory that holds FONT and the ROM (rules R78, R301). -/
theorem State.load_eq (font : FontTable) {rom : List Byte} (h : rom.length ≤ Config.maxRom) :
    ∃ m, State.load font rom = { State.reset with mem := m } ∧ m.wf = true ∧
      ∀ a, m.read a = if Config.programBase ≤ a ∧ a < Config.programBase + rom.length
        then rom.getD (a - Config.programBase) 0 else Memory.startContents font a := by
  obtain ⟨m, hload, hwf, hread⟩ := initialLoad_ok font rom h
  exact ⟨m, by simp [State.load, hload], hwf, hread⟩

/-- Settles O56: the load writes blocks inside memory into the state after reset, and each keeps the canonical form. -/
theorem loadMeetsTheInvariant : Obligations.LoadMeetsTheInvariant := by
  intro font rom hrom
  obtain ⟨m, hload, hwf, -⟩ := State.load_eq font hrom
  rw [hload]
  exact ⟨hwf, State.pcBounded_reset⟩

/-- Canonical memory that reads as the start contents everywhere lists no cell. -/
theorem Memory.eq_nil_of_read_initial {m : Memory} (hwf : m.wf = true) (h : ∀ a, m.read a = Memory.initial a) : m = [] := by
  cases m with
  | nil => rfl
  | cons c rest =>
    have hne : c.2 ≠ Memory.initial c.1 := (((Memory.wf_iff _).mp hwf).1 c (by simp)).2
    exact absurd (by simpa [Memory.read] using h c.1) hne

/-- Settles O15: the load differs from reset in memory alone, whose four ranges read as the ROM or the start
contents; with the default FONT and no ROM that memory is canonical and reads as the start contents, so that it lists nothing. -/
theorem loadedStartState : Obligations.LoadedStartState := by
  refine ⟨fun font rom hrom => ?_, ?_⟩
  · obtain ⟨m, hload, -, hread⟩ := State.load_eq font hrom
    simp only [Config.programBase] at hread
    simp only [hload]
    refine ⟨fun a ha => ?_, fun a h1 h2 => ?_, fun k hk => ?_, fun a h1 h2 => ?_, fun r => ?_, rfl, rfl, rfl, rfl, rfl,
      fun x y => ?_, rfl, fun k => ?_⟩
    · rw [hread, if_neg (by omega), Memory.startContents_of_lt font ha]
    · rw [hread, if_neg (by omega), Memory.startContents_of_ge font h1]
    · rw [hread, if_pos (by omega)]; simp [hk]
    · rw [hread, if_neg (by omega), Memory.startContents_of_ge font (by omega)]
    · simp [State.reset, State.getV]
    · exact readCell_clearDisplay x y
    · simp [State.reset]
  · obtain ⟨m, hload, hwf, hread⟩ := State.load_eq Machine.font (rom := []) (by decide)
    have hm : m = [] := Memory.eq_nil_of_read_initial hwf fun a => by
      rw [hread, if_neg (by simp)]; rfl
    rw [hload, hm]; rfl

end Sys2Proof.Machine
end

section
/-! PROOFS. What no instruction reads but those that name it: the keypad and the timers (rules R47, R48, R51, R286). -/

namespace Sys2Proof.Machine

/-- The state with the keypad and the timers replaced, each by a function of what it was: the one form of `refreshKeys`, `setDt`
and `setSt`. -/
def State.mapInputs (κ : Keypad → Keypad) (δ σ : Byte → Byte) (s : State) : State :=
  { s with key := κ s.key, dt := δ s.dt, st := σ s.st }

theorem State.refreshKeys_eq_mapInputs (k : Keypad) (s : State) : s.refreshKeys k = s.mapInputs (fun _ => k) id id := rfl

theorem State.setDt_eq_mapInputs (b : Byte) (s : State) : s.setDt b = s.mapInputs id (fun _ => b) id := rfl

theorem State.setSt_eq_mapInputs (b : Byte) (s : State) : s.setSt b = s.mapInputs id id (fun _ => b) := rfl

variable {κ : Keypad → Keypad} {δ σ : Byte → Byte} {s : State}

theorem State.skipIf_mapInputs (c : Bool) : (s.mapInputs κ δ σ).skipIf c = (s.skipIf c).mapInputs κ δ σ := by
  cases c <;> rfl

theorem State.alu_mapInputs (op : AluOp) (x y : Reg) :
    (s.mapInputs κ δ σ).alu op x y = (s.alu op x y).mapInputs κ δ σ := by
  cases op <;> rfl

/-- An access reads neither keypad nor timers, so that its outcome is the same if what goes on from it carries them along. -/
theorem orOutOfBounds_mapInputs {α : Type} {i : Instr} {access : Except Nat α} {go go' : α → State}
    (hgo : ∀ a, go' a = (go a).mapInputs κ δ σ) :
    orOutOfBounds (s.mapInputs κ δ σ) i access go' = mapNext (State.mapInputs κ δ σ) (orOutOfBounds s i access go) := by
  cases access with
  | ok a => exact congrArg Host.Outcome.next (hgo a)
  | error a => rfl

theorem keySkip_mapInputs (i : Instr) (x : Reg) (cond : Bool → Bool) :
    keySkip i x cond (s.mapInputs id δ σ) = mapNext (State.mapInputs id δ σ) (keySkip i x cond s) := by
  have hv : (s.mapInputs id δ σ).getV x = s.getV x := rfl
  rw [keySkip, keySkip, hv]
  cases keyIndex (s.getV x) with
  | none => rfl
  | some k => exact congrArg Host.Outcome.next (State.skipIf_mapInputs _)

/-- Every instruction answers the same under a replaced input and carries it along, unless it reads or writes that input. -/
theorem exec_mapInputs (i : Instr) (hκ : readsKeypad i = true → κ = id)
    (hδ : (∃ x, i = .ldVxDt x ∨ i = .ldDtVx x) → δ = id) (hσ : (∃ x, i = .ldStVx x) → σ = id) :
    exec i (s.mapInputs κ δ σ) = mapNext (State.mapInputs κ δ σ) (exec i s) := by
  cases i with
  | skp x => obtain rfl := hκ rfl; exact keySkip_mapInputs _ x fun down => down
  | sknp x => obtain rfl := hκ rfl; exact keySkip_mapInputs _ x fun down => !down
  | ldVxK x =>
    obtain rfl := hκ rfl
    have hkey : (s.mapInputs id δ σ).key = s.key := rfl
    change execLdVxK x _ = mapNext _ (execLdVxK x s)
    rw [execLdVxK, execLdVxK, hkey]
    cases pressedKeys s.key <;> rfl
  | ldVxDt x => obtain rfl := hδ ⟨x, .inl rfl⟩; rfl
  | ldDtVx x => obtain rfl := hδ ⟨x, .inr rfl⟩; rfl
  | ldStVx x => obtain rfl := hσ ⟨x, rfl⟩; rfl
  | drw | ldB | ldMemVx | ldVxMem => exact orOutOfBounds_mapInputs fun _ => rfl
  | ret =>
    cases hs : s.stack with
    | nil => rw [exec_ret s, execRet_of_nil hs]; exact execRet_of_nil hs
    | cons w rest => rw [exec_ret s, execRet_of_cons hs]; exact execRet_of_cons hs
  | addI x =>
    by_cases hsum : s.i.toNat + (s.getV x).toNat ≤ 0xFFFF
    · rw [exec_addI_of_le hsum]; exact exec_addI_of_le hsum
    · have hsum := Nat.lt_of_not_le hsum
      rw [exec_addI_of_gt hsum]; exact exec_addI_of_gt hsum
  | seImm | sneImm | seReg | sneReg => exact congrArg Host.Outcome.next (State.skipIf_mapInputs _)
  | ldReg | orReg | andReg | xorReg | addReg | subReg | shr | subnReg | shl =>
    exact congrArg Host.Outcome.next (State.alu_mapInputs _ _ _)
  | cls | jp | call | ldImm | addImm | ldI | jpV0 | rnd | ldF => rfl

/-- Settles O54: the keypad is replaced and the timers are left as they are. -/
theorem othersDoNotReadTheKeypad : Obligations.OthersDoNotReadTheKeypad := by
  intro i s k hi
  exact exec_mapInputs (κ := fun _ => k) i (by simp [hi]) (fun _ => rfl) (fun _ => rfl)

/-- Settles O55: one timer is replaced and the other inputs are left as they are; a write of a timer hides what it held. -/
theorem timersAreReadByLoadAlone : Obligations.TimersAreReadByLoadAlone := by
  intro i s b r
  refine ⟨fun hi => ?_, fun hi => ?_, rfl, rfl⟩
  · refine exec_mapInputs (σ := fun _ => b) i (fun _ => rfl) (fun _ => rfl) ?_
    rintro ⟨x, h⟩
    exact absurd h (hi x)
  · refine exec_mapInputs (δ := fun _ => b) i (fun _ => rfl) ?_ (fun _ => rfl)
    rintro ⟨x, h | h⟩
    · exact absurd h (hi x).1
    · exact absurd h (hi x).2

end Sys2Proof.Machine
end

section
/-! PROOFS. The step: what its turn and its fetch make of it, each case said once (rules R130 to R139, R285). -/

namespace Sys2Proof.Machine

/-! ### The turn -/

theorem step_of_tick {s : State} (hrun : s.run = .running) (hturn : s.takeTurn.1 = .tick) :
    step s = .next s.takeTurn.2.tick := by
  rcases ht : s.takeTurn with ⟨turn, s'⟩
  rw [ht] at hturn
  obtain rfl : turn = .tick := hturn
  simp [step, hrun, ht]

theorem step_of_instruction {s : State} {k : Keypad} (hrun : s.run = .running) (hturn : s.takeTurn.1 = .instruction k) :
    step s = instructionStep (s.takeTurn.2.refreshKeys k) := by
  rcases ht : s.takeTurn with ⟨turn, s'⟩
  rw [ht] at hturn
  obtain rfl : turn = .instruction k := hturn
  simp [step, hrun, ht]

/-- A turn changes nothing that the fetch reads. -/
@[simp] theorem State.opcodeAtPc_takeTurn_refreshKeys (s : State) (k : Keypad) :
    (s.takeTurn.2.refreshKeys k).opcodeAtPc = s.opcodeAtPc := by
  simp [State.opcodeAtPc]

variable {parts : List Part}

theorem onlyChanges_takeTurn (hs : .script ∈ parts) (hd : .draws ∈ parts) (s : State) :
    OnlyChanges parts s s.takeTurn.2 := by
  rw [s.takeTurn_snd]
  intro p hp
  cases p with
  | script => exact absurd hs hp
  | draws => exact absurd hd hp
  | mem | regs => exact fun _ => rfl
  | index | pc | stack | dt | st | disp | run | key => rfl

theorem onlyChanges_refreshKeys (h : .key ∈ parts) (s : State) (k : Keypad) : OnlyChanges parts s (s.refreshKeys k) := by
  intro p hp
  cases p with
  | key => exact absurd h hp
  | mem | regs => exact fun _ => rfl
  | index | pc | stack | dt | st | disp | run | script | draws => rfl

theorem onlyChanges_tick (hd : .dt ∈ parts) (hs : .st ∈ parts) (s : State) : OnlyChanges parts s s.tick :=
  (onlyChanges_setDt hd s (countDown s.dt)).trans (onlyChanges_setSt hs _ (countDown s.st))

/-! ### The instruction step -/

theorem instructionStep_of_decode_ok {s : State} {i : Instr} (hpc : s.pc.toNat + 1 < Config.memSize)
    (hd : decode s.opcodeAtPc = .ok i) : instructionStep s = exec i (s.setPc (s.pc + 2)) := by
  simp only [instructionStep, s.fetch_ok hpc, hd]

theorem instructionStep_of_decode_error {s : State} {e : DecodeError} (hpc : s.pc.toNat + 1 < Config.memSize)
    (hd : decode s.opcodeAtPc = .error e) : instructionStep s = .fault (.unknownOpcode s.pc s.opcodeAtPc) := by
  simp only [instructionStep, s.fetch_ok hpc, hd, raise]

theorem instructionStep_of_fetch_error {s : State} (hpc : Config.memSize ≤ s.pc.toNat + 1) :
    instructionStep s = .fault (.fetchOutOfBounds s.pc (max s.pc.toNat Config.memSize)) := by
  simp only [instructionStep, s.fetch_error hpc, raise]

/-- The record of a fault of an instruction step: the fetch address, and the opcode once it was fetched (rule R273). -/
theorem instructionStep_fault_record {s : State} {f : Fault} (h : instructionStep s = .fault f) :
    f.pc? = some s.pc ∧ (s.pc.toNat + 1 < 4096 → f.opcode? = some s.opcodeAtPc) ∧
      (4096 ≤ s.pc.toNat + 1 → f.opcode? = none) := by
  by_cases hpc : s.pc.toNat + 1 < 4096
  · have hin : ¬ 4096 ≤ s.pc.toNat + 1 := by omega
    suffices f.pc? = some s.pc ∧ f.opcode? = some s.opcodeAtPc from ⟨this.1, fun _ => this.2, fun hout => absurd hout hin⟩
    cases hd : decode s.opcodeAtPc with
    | error e =>
      rw [instructionStep_of_decode_error hpc hd] at h
      cases h
      exact ⟨rfl, rfl⟩
    | ok i =>
      rw [instructionStep_of_decode_ok hpc hd] at h
      obtain ⟨-, haddr, hopcode⟩ := instructionsRaiseOnlyTheirFaults i _ f h
      rw [encode_of_decode hd] at hopcode
      exact ⟨by simpa using haddr, hopcode⟩
  · rw [instructionStep_of_fetch_error (Nat.le_of_not_lt hpc)] at h
    cases h
    exact ⟨rfl, fun hin => absurd hin hpc, fun _ => rfl⟩

/-! ### The claims on one step -/

/-- Settles O8: taking the turn and the keypad keeps PC and memory, so that the fetch reads the opcode at PC. -/
theorem stepRunsTheDecodedInstruction : Obligations.StepRunsTheDecodedInstruction := by
  intro s s' k hrun hturn hpc
  obtain ⟨hturn, rfl⟩ := Prod.ext_iff.mp hturn
  rw [step_of_instruction hrun hturn]
  have hfetch : (s.takeTurn.2.refreshKeys k).pc.toNat + 1 < Config.memSize := by simpa using hpc
  refine ⟨fun i hd => ?_, fun e hd => ?_⟩
  · rw [instructionStep_of_decode_ok hfetch (by simpa using hd)]; simp
  · rw [instructionStep_of_decode_error hfetch (by simpa using hd)]; simp

/-- Settles O9: the fetch fault of the address that the turn leaves as PC. -/
theorem fetchOutOfBoundsIsFatal : Obligations.FetchOutOfBoundsIsFatal := by
  intro s s' k hrun hturn hpc
  obtain ⟨hturn, rfl⟩ := Prod.ext_iff.mp hturn
  have hstep : step s = .fault (.fetchOutOfBounds s.pc (max s.pc.toNat 4096)) := by
    rw [step_of_instruction hrun hturn, instructionStep_of_fetch_error (by simp; omega)]; simp
  refine ⟨_, hstep, runAfter_of_fault hstep, rfl, rfl, rfl, congrArg some ?_⟩
  split <;> omega

/-- Settles O11: taking the turn keeps the timers, and the tick counts both down. -/
theorem tickDecrementsBothTimers : Obligations.TickDecrementsBothTimers := by
  intro s s' hrun hturn
  obtain ⟨hturn, rfl⟩ := Prod.ext_iff.mp hturn
  refine ⟨_, step_of_tick hrun hturn, ?_, by simp [countDown_toNat], by simp [countDown_toNat]⟩
  exact (onlyChanges_takeTurn (by simp) (by simp) s).trans (onlyChanges_tick (by simp) (by simp) _)

/-- Settles O14: a tick is no fault, and the record of an instruction step is that of its fetch and its instruction. -/
theorem fatalStepNamesAddressAndOpcode : Obligations.FatalStepNamesAddressAndOpcode := by
  intro s f hrun hstep
  cases hturn : s.takeTurn.1 with
  | tick => simp [step_of_tick hrun hturn] at hstep
  | instruction k =>
    rw [step_of_instruction hrun hturn] at hstep
    simpa using instructionStep_fault_record hstep

/-- Settles O17: past FONT the start contents are zero, and 0x0000 decodes to nothing. -/
theorem emptyRomIsUnknownOpcode : Obligations.EmptyRomIsUnknownOpcode := by
  intro font k rest
  obtain ⟨m, hload, -, hread⟩ := State.load_eq font (rom := []) (by decide)
  have hzero (a : Nat) (ha : 80 ≤ a) : m.read a = 0 := by
    rw [hread, if_neg (by simp), Memory.startContents_of_ge font ha]
  rw [hload]
  generalize hs : ({ { State.reset with mem := m } with script := .instruction k :: rest } : State) = s
  have hop : s.opcodeAtPc = 0 := by
    subst hs
    change joinBytes (m.read 0x200) (m.read 0x201) = 0
    rw [hzero _ (by decide), hzero _ (by decide)]; rfl
  have hturn : s.takeTurn.1 = .instruction k := by subst hs; rfl
  have hpc : s.pc = 0x200 := by subst hs; rfl
  have hrun : s.run = .running := by subst hs; rfl
  have hd : decode s.opcodeAtPc = .error (.unknown 0) := by rw [hop]; rfl
  rw [step_of_instruction hrun hturn, instructionStep_of_decode_error (by simp [hpc]) (by simpa using hd)]
  simp [hpc, hop]

theorem State.setPc_setPc (s : State) (a b : Word) : (s.setPc a).setPc b = s.setPc b := rfl

theorem State.setPc_self (s : State) : s.setPc s.pc = s := rfl

/-- Settles O42: PC advances by 2 at the fetch and is rewound by 2 in the wait. -/
theorem keyWaitLeavesPcUnchanged : Obligations.KeyWaitLeavesPcUnchanged := by
  intro x s s' k hrun hturn hpc hop hoff
  obtain ⟨hturn, rfl⟩ := Prod.ext_iff.mp hturn
  have hstep : step s = .next (s.takeTurn.2.refreshKeys k) := by
    rw [step_of_instruction hrun hturn, instructionStep_of_decode_ok (by simpa using hpc)
      (i := .ldVxK x) (by simp [hop, decode_encode]), exec_ldVxK_of_released hoff, State.setPc_pc, State.setPc_setPc,
      BitVec.add_sub_cancel, State.setPc_self]
  exact ⟨_, hstep, (onlyChanges_takeTurn (by simp) (by simp) s).trans (onlyChanges_refreshKeys (by simp) _ k)⟩

theorem onlyChanges_withScript (h : .script ∈ parts) (s : State) (l : List Turn) :
    OnlyChanges parts s { s with script := l } := by
  intro p hp
  cases p with
  | script => exact absurd h hp
  | mem | regs => exact fun _ => rfl
  | index | pc | stack | dt | st | disp | run | key | draws => rfl

/-- A tick that the script settles draws no free value. -/
theorem step_of_script_tick {s : State} {rest : List Turn} (hrun : s.run = .running) (hscript : s.script = .tick :: rest) :
    step s = .next (State.tick { s with script := rest }) := by
  have hturn := State.takeTurn_cons hscript
  rw [step_of_tick hrun (congrArg Prod.fst hturn), hturn]

/-- Settles O12: by induction on the number of ticks, each of which the script settles. -/
theorem ticksCountDownToZero : Obligations.TicksCountDownToZero := by
  intro n
  induction n with
  | zero =>
    intro s rest _ hscript
    exact ⟨s, rfl, .refl _ s, hscript, rfl, rfl⟩
  | succ n ih =>
    intro s rest hrun hscript
    have hstep := step_of_script_tick hrun (rest := List.replicate n .tick ++ rest) (by simpa [List.replicate_succ] using hscript)
    obtain ⟨t, hruns, hframe, hrest, hdt, hst⟩ := ih (State.tick { s with script := _ }) rest hrun rfl
    refine ⟨t, (core_run_succ n hstep).trans hruns, ?_, hrest, ?_, ?_⟩
    · exact ((onlyChanges_withScript (by simp) s _).trans (onlyChanges_tick (by simp) (by simp) _)).trans hframe
    · rw [hdt, State.tick_dt, countDown_toNat, Nat.sub_sub, Nat.add_comm 1]
    · rw [hst, State.tick_st, countDown_toNat, Nat.sub_sub, Nat.add_comm 1]

end Sys2Proof.Machine
end

section
/-! PROOFS. The self-jump and the end of a run (rules R202, R316). -/

namespace Sys2Proof.Machine

/-! ### At a self-jump -/

/-- Whether a state is at a self-jump is read from the run state, PC and memory alone. -/
theorem State.atSelfJump_congr {s t : State} (hrun : t.run = s.run) (hpc : t.pc = s.pc) (hmem : t.mem = s.mem) :
    t.atSelfJump = s.atSelfJump := by
  rw [Bool.eq_iff_iff]
  simp only [State.atSelfJump_iff, State.opcodeAtPc, hrun, hpc, hmem]

/-- An address inside memory is its own low twelve bits. -/
theorem zext16_setWidth {w : Word} (h : w.toNat < 4096) : zext16 (w.setWidth 12) = w := by
  apply BitVec.eq_of_toNat_eq
  rw [zext16_toNat, BitVec.toNat_setWidth]
  omega

/-- An instruction turn at a self-jump takes the turn and the keypad, and jumps to where it was. -/
theorem step_of_atSelfJump_instruction {s : State} {k : Keypad} (hself : s.atSelfJump = true)
    (hturn : s.takeTurn.1 = .instruction k) : step s = .next (s.takeTurn.2.refreshKeys k) := by
  obtain ⟨hrun, hpc, hd⟩ := (State.atSelfJump_iff s).mp hself
  have htarget : zext16 (s.pc.setWidth 12) = (s.takeTurn.2.refreshKeys k).pc := by
    rw [zext16_setWidth (Nat.lt_of_succ_lt hpc)]; simp
  rw [step_of_instruction hrun hturn, instructionStep_of_decode_ok (by simpa using hpc) (by simpa using hd), exec_jp,
    State.setPc_setPc, htarget, State.setPc_self]

/-- Settles O59: a tick keeps run state, PC and memory; an instruction turn jumps from PC to PC. -/
theorem selfJumpRepeats : Obligations.SelfJumpRepeats := by
  intro s hself
  have htake : OnlyChanges [.dt, .st, .key, .script, .draws] s s.takeTurn.2 := onlyChanges_takeTurn (by simp) (by simp) s
  cases hturn : s.takeTurn.1 with
  | tick =>
    have hrun := ((State.atSelfJump_iff s).mp hself).1
    have hsame : s.takeTurn.2.tick.atSelfJump = s.atSelfJump := State.atSelfJump_congr (by simp) (by simp) (by simp)
    refine ⟨_, step_of_tick hrun hturn, hsame.trans hself, htake.trans (onlyChanges_tick (by simp) (by simp) _), ?_, ?_⟩
    · simp [countDown_toNat]
    · simp
  | instruction k =>
    have hsame : (s.takeTurn.2.refreshKeys k).atSelfJump = s.atSelfJump :=
      State.atSelfJump_congr (by simp) (by simp) (by simp)
    refine ⟨_, step_of_atSelfJump_instruction hself hturn, hsame.trans hself,
      htake.trans (onlyChanges_refreshKeys (by simp) _ k), ?_, ?_⟩
    · simp
    · simp

/-! ### The first end of a run -/

theorem runToEnd_of_runEnd {s : State} {e : RunEnd} (h : s.runEnd? = some e) (n : Nat) : runToEnd n s = e := by
  cases n <;> simp [runToEnd, h]

theorem runToEnd_zero_of_running {s : State} (h : s.runEnd? = none) : runToEnd 0 s = .bound s := by
  simp [runToEnd, h]

theorem runToEnd_succ_of_next {s t : State} (h : s.runEnd? = none) (hstep : step s = .next t) (n : Nat) :
    runToEnd (n + 1) s = runToEnd n t := by
  simp [runToEnd, h, hstep]

theorem runToEnd_succ_of_fault {s : State} {f : Fault} (h : s.runEnd? = none) (hstep : step s = .fault f) (n : Nat) :
    runToEnd (n + 1) s = .fatal f := by
  simp [runToEnd, h, hstep]

/-- The run of at most n steps from s is observed at t, k steps on, at an end of the three kinds of rule R316. -/
def EndsAt (n : Nat) (s : State) (k : Nat) (t : State) : Prop :=
  (runToEnd n s = .selfJump t ∧ t.atSelfJump = true) ∨
    (∃ f, runToEnd n s = .fatal f ∧ step t = .fault f ∧ t.atSelfJump = false ∧ (k < n ∨ t.run = .halted f)) ∨
    (runToEnd n s = .bound t ∧ k = n ∧ t.run = .running ∧ t.atSelfJump = false)

/-- A state that is at an end before any step. -/
theorem endsAt_of_runEnd {s : State} {e : RunEnd} (h : s.runEnd? = some e) (n : Nat) : EndsAt n s 0 s := by
  have hend := runToEnd_of_runEnd h n
  cases hrun : s.run with
  | halted f =>
    rw [State.runEnd?_of_halted hrun] at h
    cases h
    exact .inr (.inl ⟨f, hend, step_of_halted hrun, by simp [State.atSelfJump, hrun], .inr hrun⟩)
  | running =>
    cases hself : s.atSelfJump with
    | true =>
      rw [State.runEnd?_of_selfJump hself] at h
      cases h
      exact .inl ⟨hend, hself⟩
    | false => simp [State.runEnd?_eq_none.mpr ⟨hrun, hself⟩] at h

/-- The run from s reaches t after k steps, at its first end. -/
def FirstEndAt (n : Nat) (s : State) (k : Nat) (t : State) : Prop :=
  Sys2Proof.core.run k s = .next t ∧
    (∀ j u, j < k → Sys2Proof.core.run j s = .next u → u.run = .running ∧ u.atSelfJump = false) ∧ EndsAt n s k t

theorem EndsAt.firstEndAt {n : Nat} {s : State} (h : EndsAt n s 0 s) : FirstEndAt n s 0 s :=
  ⟨rfl, fun j _ hj => absurd hj (Nat.not_lt_zero j), h⟩

/-- A step from a state that is at no end puts the first end one step later. -/
theorem FirstEndAt.of_step {n k : Nat} {s u t : State} (h : FirstEndAt n u k t) (hnone : s.runEnd? = none)
    (hstep : step s = .next u) : FirstEndAt (n + 1) s (k + 1) t := by
  obtain ⟨hruns, hbefore, hends⟩ := h
  refine ⟨(core_run_succ k hstep).trans hruns, fun j v hj hv => ?_, ?_⟩
  · cases j with
    | zero => cases hv; exact State.runEnd?_eq_none.mp hnone
    | succ j => exact hbefore j v (Nat.lt_of_succ_lt_succ hj) ((core_run_succ j hstep).symm.trans hv)
  · unfold EndsAt at *
    rw [runToEnd_succ_of_next hnone hstep]
    simpa using hends

theorem exists_firstEndAt (n : Nat) (s : State) : ∃ k, k ≤ n ∧ ∃ t, FirstEndAt n s k t := by
  induction n generalizing s with
  | zero =>
    refine ⟨0, Nat.le_refl 0, s, EndsAt.firstEndAt ?_⟩
    cases hend : s.runEnd? with
    | some e => exact endsAt_of_runEnd hend 0
    | none =>
      obtain ⟨hrun, hself⟩ := State.runEnd?_eq_none.mp hend
      exact .inr (.inr ⟨runToEnd_zero_of_running hend, rfl, hrun, hself⟩)
  | succ n ih =>
    cases hend : s.runEnd? with
    | some e => exact ⟨0, Nat.zero_le _, s, (endsAt_of_runEnd hend (n + 1)).firstEndAt⟩
    | none =>
      cases hstep : step s with
      | refused r => exact absurd hstep (nothingIsRefused s r)
      | fault f =>
        have hself := (State.runEnd?_eq_none.mp hend).2
        have hends : EndsAt (n + 1) s 0 s :=
          .inr (.inl ⟨f, runToEnd_succ_of_fault hend hstep n, hstep, hself, .inl (Nat.succ_pos n)⟩)
        exact ⟨0, Nat.zero_le _, s, hends.firstEndAt⟩
      | next u =>
        obtain ⟨k, hk, t, hfirst⟩ := ih u
        exact ⟨k + 1, Nat.succ_le_succ hk, t, hfirst.of_step hend hstep⟩

/-- Settles O60: by induction on the bound, through `exists_firstEndAt`. -/
theorem runIsObservedAtItsFirstEnd : Obligations.RunIsObservedAtItsFirstEnd := exists_firstEndAt

end Sys2Proof.Machine
end

section
/-! PROOFS. The ALU family: what Vx and VF hold afterwards, as numbers (rules R150 to R170). -/

namespace Sys2Proof.Machine

@[simp] theorem flagByte_toNat (b : Bool) : (flagByte b).toNat = if b then 1 else 0 := by cases b <;> rfl

/-- An ALU operation without a flag writes Vx alone. -/
theorem completes_alu_none {i : Instr} {op : AluOp} {x y : Reg} {s : State} (hexec : exec i s = .next (s.alu op x y))
    (hflag : aluFlag op (s.getV x) (s.getV y) = none) :
    Completes i s [.regs] fun t => ∀ r, t.getV r = if r = x then aluResult op (s.getV x) (s.getV y) else s.getV r :=
  ⟨_, hexec, onlyChanges_alu (by simp) s op x y, fun r => by rw [State.getV_alu, hflag]⟩

/-- An ALU operation with a flag writes Vx and then VF: the two values, as numbers, are what is left to say of it. -/
theorem completes_alu_some {i : Instr} {op : AluOp} {x y : Reg} {s : State} {f : Byte} {flag result : Nat}
    (hexec : exec i s = .next (s.alu op x y)) (hop : aluFlag op (s.getV x) (s.getV y) = some f) (hflag : f.toNat = flag)
    (hresult : (aluResult op (s.getV x) (s.getV y)).toNat = result) :
    Completes i s [.regs] fun t =>
      ∀ r, (t.getV r).toNat = if r = Reg.vf then flag else if r = x then result else (s.getV r).toNat := by
  refine ⟨_, hexec, onlyChanges_alu (by simp) s op x y, fun r => ?_⟩
  rw [State.getV_alu, hop, ← hflag, ← hresult]
  simp only [apply_ite BitVec.toNat]

/-- Settles O21: these four operations have no flag. -/
theorem movesAndLogicWriteVxOnly : Obligations.MovesAndLogicWriteVxOnly := by
  intro x y s
  exact ⟨completes_alu_none (exec_ldReg x y s) rfl, completes_alu_none (exec_orReg x y s) rfl,
    completes_alu_none (exec_andReg x y s) rfl, completes_alu_none (exec_xorReg x y s) rfl⟩

/-- Settles O22: one write of Vx with the sum of bytes. -/
theorem addImmediateDiscardsCarry : Obligations.AddImmediateDiscardsCarry := by
  intro x nn s
  refine ⟨_, exec_addImm x nn s, onlyChanges_setV (by simp) s x _, fun r => ?_⟩
  rw [State.getV_setV]
  split
  · exact BitVec.toNat_add _ _
  · rfl

/-- Settles O23: the flag and the sum as numbers. -/
theorem addRegistersSetsCarry : Obligations.AddRegistersSetsCarry := by
  intro x y s
  exact completes_alu_some (exec_addReg x y s) rfl (by simp [carryFlag]) (BitVec.toNat_add _ _)

theorem noBorrowFlag_toNat (a b : Byte) : (noBorrowFlag a b).toNat = if a.toNat ≥ b.toNat then 1 else 0 := by
  simp [noBorrowFlag]

theorem sub_toNat (a b : Byte) : (a - b).toNat = (a.toNat + 256 - b.toNat) % 256 := by
  bv_omega

/-- Settles O24: the no-borrow flag and the difference as numbers, with the operands exchanged for `8xy7`. -/
theorem subtractionsSetNoBorrow : Obligations.SubtractionsSetNoBorrow := by
  intro x y s
  exact ⟨completes_alu_some (exec_subReg x y s) rfl (noBorrowFlag_toNat _ _) (sub_toNat _ _),
    completes_alu_some (exec_subnReg x y s) rfl (noBorrowFlag_toNat _ _) (sub_toNat _ _)⟩

theorem lowBitFlag_toNat (a : Byte) : (lowBitFlag a).toNat = a.toNat % 2 := by
  simp [lowBitFlag, Nat.and_one_is_mod]

theorem highBitFlag_toNat (a : Byte) : (highBitFlag a).toNat = a.toNat / 128 := by
  simp [highBitFlag, Nat.and_one_is_mod, Nat.shiftRight_eq_div_pow]
  omega

theorem shiftRight_one_toNat (a : Byte) : (a >>> 1).toNat = a.toNat / 2 := by
  simp [Nat.shiftRight_eq_div_pow]

theorem shiftLeft_one_toNat (a : Byte) : (a <<< 1).toNat = a.toNat * 2 % 256 := by
  simp [Nat.shiftLeft_eq]

/-- Settles O25: the bit shifted out and the shifted value as numbers; neither reads Vy. -/
theorem shiftsIgnoreVy : Obligations.ShiftsIgnoreVy := by
  intro x y s
  exact ⟨completes_alu_some (exec_shr x y s) rfl (lowBitFlag_toNat _) (shiftRight_one_toNat _),
    completes_alu_some (exec_shl x y s) rfl (highBitFlag_toNat _) (shiftLeft_one_toNat _)⟩

/-- Settles O26: one write of Vx with the masked byte, after the draw is counted. -/
theorem randomByteIsMasked : Obligations.RandomByteIsMasked := by
  intro x nn s
  refine completes_of_exec (exec_rnd x nn s) ⟨fun r => State.getV_setV _ x r _, rfl, ?_⟩
  rintro rfl
  simp

end Sys2Proof.Machine
end

section
/-! PROOFS. Jumps, calls and the stack bound (rules R43, R44, R200 to R204). -/

namespace Sys2Proof.Machine

theorem encodedAs_jp (nnn : Addr12) : EncodedAs (.jp nnn) 0x1000 0xF000 :=
  encodedAs_of_packA (f := 1) (by decide) (fun _ => rfl) (fun w h => by simp [decode, h]) nnn

theorem encodedAs_jpV0 (nnn : Addr12) : EncodedAs (.jpV0 nnn) 0xB000 0xF000 :=
  encodedAs_of_packA (f := 11) (by decide) (fun _ => rfl) (fun w h => by simp [decode, h]) nnn

/-- A PC past the last address a fetch succeeds at faults there, and names itself (rules R39, R132). -/
theorem State.fetch_fault_of_ge (s : State) (h : 0xFFF ≤ s.pc.toNat) :
    ∃ f, s.fetch = .error f ∧ f.code = 3 ∧ f.pc? = some s.pc :=
  ⟨_, s.fetch_error (Nat.succ_le_succ h), rfl, rfl⟩

/-- Settles O31: each jump is one write of PC, and the fetch alone checks where it went. -/
theorem jumpsGoToTheirTargets : Obligations.JumpsGoToTheirTargets := by
  intro nnn s
  exact ⟨encodedAs_jp nnn, encodedAs_jpV0 nnn,
    completes_of_exec (exec_jp nnn s) ⟨zext16_toNat nnn, State.fetch_fault_of_ge _⟩,
    completes_of_exec (exec_jpV0 nnn s) ⟨offsetTarget_toNat nnn _, State.fetch_fault_of_ge _⟩⟩

/-- Settles O32: the push of the advanced PC and the write of PC. -/
theorem callPushesTheReturnAddress : Obligations.CallPushesTheReturnAddress :=
  fun nnn s => completes_of_exec (exec_call nnn s) ⟨rfl, zext16_toNat nnn⟩

/-- Settles O34: the call left the return address on top, and the return takes it. -/
theorem returnUndoesCall : Obligations.ReturnUndoesCall := by
  intro nnn s t u hcall hstack
  rw [exec_call] at hcall
  cases hcall
  exact ⟨_, (exec_ret u).trans (execRet_of_cons hstack), rfl, rfl⟩

theorem callWithin_of_push {depth : Option Nat} {s : State} (nnn : Addr12) {l : List Word}
    (h : pushWithin depth s.stack s.pc = some l) :
    callWithin depth nnn s = .next ((s.setStack l).setPc (zext16 nnn)) := by
  simp [callWithin, h]

theorem callWithin_of_full {depth : Option Nat} {s : State} (nnn : Addr12) (h : pushWithin depth s.stack s.pc = none) :
    callWithin depth nnn s = .fault (.stackOverflow (s.pc - 2) (encode (.call nnn))) := by
  simp [callWithin, h, raise, State.fetchAddr]

/-- Settles O35: the push under the bound, and without one. -/
theorem callRespectsTheStackBound : Obligations.CallRespectsTheStackBound := by
  intro k nnn s
  refine ⟨fun hfull => callWithin_of_full nnn ?_, fun hroom => ⟨_, callWithin_of_push nnn ?_, rfl⟩,
    _, callWithin_of_push nnn (pushWithin_none ..), rfl⟩
  · rw [pushWithin_some, if_pos hfull]
  · rw [pushWithin_some, if_neg (Nat.not_le.mpr hroom)]

end Sys2Proof.Machine
end

section
/-! PROOFS. The keypad instructions (rules R230 to R234). -/

namespace Sys2Proof.Machine

/-- Settles O37: the lookup finds the key that Vx names, and the skip is on its flag. -/
theorem keySkipsReadTheKeypad : Obligations.KeySkipsReadTheKeypad := by
  intro x k s hk
  refine ⟨completes_of_exec_skipIf (keySkip_of_key (.skp x) (fun down => down) hk), ?_⟩
  have hcompletes := completes_of_exec_skipIf (i := .sknp x) (keySkip_of_key (.sknp x) (fun down => !down) hk)
  simpa only [Bool.not_eq_true', ← Bool.not_eq_true, ite_not] using hcompletes

/-- Settles O38: the lookup finds no key. -/
theorem keyIndexAboveFifteenIsFatal : Obligations.KeyIndexAboveFifteenIsFatal :=
  fun x _ h => ⟨keySkip_of_gt (.skp x) (fun down => down) h, keySkip_of_gt (.sknp x) (fun down => !down) h⟩

theorem keyByte_toNat (k : Key) : (keyByte k).toNat = k.val :=
  (BitVec.toNat_ofNat ..).trans (Nat.mod_eq_of_lt (by omega))

/-- Settles O40: the two ways of the wait; the captured key is one of the pressed ones. -/
theorem keyWaitCapturesAPressedKey : Obligations.KeyWaitCapturesAPressedKey := by
  intro x s
  refine ⟨fun hoff => ⟨_, exec_ldVxK_of_released hoff, onlyChanges_setPc (by simp) s _, State.setPc_pc ..⟩,
    fun hdown => ?_⟩
  obtain ⟨k, hk, hexec⟩ := exec_ldVxK_of_pressed x hdown
  have hframe : OnlyChanges [.regs, .draws] s (s.drawn.setV x (keyByte k)) :=
    (onlyChanges_drawn (by simp) s).trans (onlyChanges_setV (by simp) _ x _)
  refine ⟨_, hexec, hframe, k, hk, fun r => ?_⟩
  rw [State.getV_setV]
  split
  · exact keyByte_toNat k
  · rfl

/-- Every pressed key is the choice of its own place in the list. -/
theorem exists_chooseKey_of_mem {first : Key} {rest : List Key} {k : Key} (h : k ∈ first :: rest) :
    ∃ c, chooseKey first rest c = k := by
  obtain ⟨c, hc, hk⟩ := List.getElem_of_mem h
  refine ⟨c, ?_⟩
  cases rest with
  | nil => simpa [chooseKey, eq_comm] using h
  | cons second rest => rw [chooseKey, Nat.mod_eq_of_lt hc, List.getD_eq_getElem _ _ hc, hk]

/-- Settles O41: every member of the list of pressed keys is chosen by its place, and only members are chosen. -/
theorem anyPressedKeyMayBeCaptured : Obligations.AnyPressedKeyMayBeCaptured := by
  intro keys first rest hpressed k
  rw [← mem_pressedKeys, hpressed]
  refine ⟨exists_chooseKey_of_mem, ?_⟩
  rintro ⟨c, rfl⟩
  exact chooseKey_mem first rest c

end Sys2Proof.Machine
end

section
/-! PROOFS. The index register and the memory blocks (rules R73, R80, R83, R250 to R262). -/

namespace Sys2Proof.Machine

/-! ### The index register -/

theorem glyphAddress_false_toNat (b : Byte) : (glyphAddress false b).toNat = 5 * b.toNat := by
  simp [glyphAddress]; omega

theorem glyphAddress_true_toNat (b : Byte) : (glyphAddress true b).toNat = 5 * (b.toNat % 16) := by
  have hmask : (b &&& 0xF).toNat = b.toNat % 16 := Nat.and_two_pow_sub_one_eq_mod b.toNat 4
  rw [glyphAddress, if_pos rfl, hmask, BitVec.toNat_ofNat, fontGlyphBytes_eq]
  omega

/-- Settles O44: 255 × 5 fits in the word, and 0xF masks to the remainder by 16. -/
theorem glyphAddressIsFiveTimesVx : Obligations.GlyphAddressIsFiveTimesVx :=
  fun x s => ⟨completes_of_exec (exec_ldF x s) (glyphAddress_false_toNat _), glyphAddress_true_toNat _⟩

/-- Settles O45: the sum fits in the word exactly when there is no fault. -/
theorem addIndexFlagsLeavingTwelveBits : Obligations.AddIndexFlagsLeavingTwelveBits := by
  intro x s
  refine ⟨fun hsum => completes_of_exec (exec_addI_of_le hsum) ⟨?_, fun r => ?_⟩, exec_addI_of_gt⟩
  · exact (BitVec.toNat_ofNat ..).trans (Nat.mod_eq_of_lt (Nat.lt_succ_of_le hsum))
  · rw [State.getV_setV, addressRangeFlag, flagByte]
    simp only [decide_eq_true_eq]
    rfl

/-! ### Memory -/

/-- Settles O18: the law of a read after a write. -/
theorem readSeesTheLastWrite : Obligations.ReadSeesTheLastWrite := Memory.read_write

/-- An instruction that stores a block inside memory completes: the bytes of the block are the list's, the others as before. -/
theorem exec_store_ok {i : Instr} {s : State} {bs : List Byte}
    (hexec : exec i s = orOutOfBounds s i (writeBlock s.mem s.base bs) s.setMem) (hfits : s.i.toNat + bs.length ≤ 4096) :
    ∃ m, exec i s = .next (s.setMem m) ∧
      ∀ a, m.read a = if s.i.toNat ≤ a ∧ a < s.i.toNat + bs.length then bs.getD (a - s.i.toNat) 0 else s.mem.read a := by
  obtain ⟨m, hwrite, -, hread⟩ := writeBlock_ok s.mem s.base bs hfits
  exact ⟨m, by rw [hexec, hwrite, orOutOfBounds_ok], hread⟩

/-- Settles O46: the three digits are the bytes of the stored block, and a digit fits in a byte. -/
theorem bcdStoresThreeDigits : Obligations.BcdStoresThreeDigits := by
  intro x s hfits
  obtain ⟨m, hexec, hread⟩ := exec_store_ok (exec_ldB x s) (by simpa [bcdDigits] using hfits)
  have hlen : (bcdDigits (s.getV x)).length = 3 := rfl
  rw [hlen] at hread
  have hdigit (k : Nat) (hk : k < 3) : m.read (s.i.toNat + k) = (bcdDigits (s.getV x)).getD k 0 := by
    rw [hread, if_pos (by omega), Nat.add_sub_cancel_left]
  have hbyte {d : Nat} (hd : d < 256) : (BitVec.ofNat 8 d).toNat = d := (BitVec.toNat_ofNat ..).trans (Nat.mod_eq_of_lt hd)
  refine completes_of_exec hexec ⟨?_, ?_, ?_, fun a ha => ?_⟩
  · exact (congrArg BitVec.toNat (hdigit 0 (by decide))).trans (hbyte (by omega))
  · exact (congrArg BitVec.toNat (hdigit 1 (by decide))).trans (hbyte (by omega))
  · exact (congrArg BitVec.toNat (hdigit 2 (by decide))).trans (hbyte (by omega))
  · rw [State.setMem_mem, hread, if_neg (by omega)]

/-- A block store inside memory completes, with Vk at I + k and every other byte as before. -/
theorem exec_ldMemVx_ok {x : Reg} {s : State} (hfits : s.i.toNat + x.val + 1 ≤ 4096) :
    ∃ m, exec (.ldMemVx x) s = .next (s.setMem m) ∧ (∀ k : Reg, k ≤ x → m.read (s.i.toNat + k.val) = s.getV k) ∧
      ∀ a, a < s.i.toNat ∨ s.i.toNat + x.val + 1 ≤ a → m.read a = s.mem.read a := by
  obtain ⟨m, hexec, hread⟩ := exec_store_ok (exec_ldMemVx x s) (by rwa [State.length_regsUpTo])
  obtain ⟨-, -, hstored⟩ := of_exec_ldMemVx_next hexec
  refine ⟨m, hexec, hstored, fun a ha => ?_⟩
  rw [hread, State.length_regsUpTo, if_neg (by omega)]

/-- Settles O47: the stored block and what is outside it. -/
theorem storeWritesRegistersInOrder : Obligations.StoreWritesRegistersInOrder := by
  intro x s hfits
  obtain ⟨m, hexec, hstored, hkept⟩ := exec_ldMemVx_ok hfits
  exact completes_of_exec hexec ⟨hstored, hkept⟩

theorem toNat_add_two {w : Word} (h : w.toNat + 1 < 4096) : (w + 2).toNat = w.toNat + 2 := by
  bv_omega

/-- Settles O19: the two bytes at PC are in the stored block, and the store leaves PC alone. -/
theorem fetchSeesStoredBytes : Obligations.FetchSeesStoredBytes := by
  intro x s hfits
  obtain ⟨m, hexec, hstored, -⟩ := exec_ldMemVx_ok hfits
  refine ⟨_, hexec, fun j j' hnext hj' hpc => ?_⟩
  have hle : j'.val ≤ x.val := hj'
  have hj : j ≤ x := Fin.le_def.mpr (by omega)
  have hin : (s.setMem m).pc.toNat + 1 < Config.memSize := by rw [memSize_eq, hpc]; omega
  have hop : (s.setMem m).opcodeAtPc = joinBytes (s.getV j) (s.getV j') := by
    rw [State.opcodeAtPc, hpc, State.setMem_mem, ← hstored j hj, ← hstored j' hj', hnext, Nat.add_assoc]
  exact ⟨_, hop ▸ State.fetch_ok _ hin, onlyChanges_setPc (by simp) _ _, toNat_add_two hin⟩

/-- Settles O48: the loaded registers are those of the bytes read, and the rest is past the block. -/
theorem loadReadsRegistersInOrder : Obligations.LoadReadsRegistersInOrder := by
  intro x s hfits
  have hexec := exec_ldVxMem x s
  rw [readBlock_eq_bytesAt s.mem (a := s.base) (n := blockLength x) (.inr hfits), orOutOfBounds_ok] at hexec
  refine completes_of_exec hexec fun r => ?_
  rw [State.getV_loadRegs, length_bytesAt, blockLength]
  by_cases hr : r.val < x.val + 1
  · have hle : r ≤ x := Nat.le_of_lt_succ hr
    rw [if_pos hr, if_pos hle]
    simp [bytesAt, hr, State.base]
  · have hgt : ¬ r ≤ x := fun hle => hr (Nat.lt_succ_of_le hle)
    rw [if_neg hr, if_neg hgt]

/-! ### Blocks that leave memory -/

theorem firstOutside_eq_max (a : Nat) : (if a ≥ 4096 then a else 4096) = max a Config.memSize := by
  rw [memSize_eq]; split <;> omega

/-- Settles O49: the first address outside is the larger of I and 4096, for a write and a read of a block alike. -/
theorem blocksOutOfBoundsAreFatal : Obligations.BlocksOutOfBoundsAreFatal := by
  intro x s
  simp only [firstOutside_eq_max]
  refine ⟨fun hout => ?_, fun hout => ⟨?_, ?_⟩⟩
  · rw [exec_ldB, writeBlock_error s.mem s.base (bcdDigits _) (by simp [bcdDigits]) hout, orOutOfBounds_error]; rfl
  · have hne : s.regsUpTo x ≠ [] := List.ne_nil_of_length_eq_add_one (s.length_regsUpTo x)
    rw [exec_ldMemVx, writeBlock_error s.mem s.base _ hne (by rwa [State.length_regsUpTo]), orOutOfBounds_error]; rfl
  · rw [exec_ldVxMem, readBlock_error s.mem s.base (blockLength x) (Nat.succ_pos _) hout, orOutOfBounds_error]; rfl

end Sys2Proof.Machine
end

section
/-! PROOFS. Drawing a sprite (rules R182 to R188). -/

namespace Sys2Proof.Machine

theorem startColumn_eq (b : Byte) : startColumn b = b.toNat % 64 := Nat.and_two_pow_sub_one_eq_mod b.toNat 6

theorem startRow_eq (b : Byte) : startRow b = b.toNat % 32 := Nat.and_two_pow_sub_one_eq_mod b.toNat 5

/-- The cells that the bytes at `base` cover are those of the sprite. -/
theorem rowsCover_bytesAt (m : Memory) (base n x0 y0 cx cy : Nat) :
    rowsCover x0 y0 (bytesAt m base n) cx cy = spriteCovers m base n x0 y0 cx cy := by
  unfold rowsCover spriteCovers bytesAt
  by_cases hrow : cy - y0 < n
  · have hin : (x0 ≤ cx ∧ cx < x0 + 8 ∧ y0 ≤ cy ∧ cy < y0 + n) ↔ (x0 ≤ cx ∧ cx < x0 + 8 ∧ y0 ≤ cy) := by
      omega
    simp [hrow, hin]
  · have hout : ¬ (x0 ≤ cx ∧ cx < x0 + 8 ∧ y0 ≤ cy ∧ cy < y0 + n) := by omega
    simp [hrow, hout]

/-- The sprite covers the same cells wherever its n bytes are the same. -/
theorem spriteCovers_congr {m m' : Memory} {base n : Nat} (h : ∀ r, r < n → m'.read (base + r) = m.read (base + r))
    (x0 y0 cx cy : Nat) : spriteCovers m' base n x0 y0 cx cy = spriteCovers m base n x0 y0 cx cy := by
  unfold spriteCovers
  by_cases hin : x0 ≤ cx ∧ cx < x0 + 8 ∧ y0 ≤ cy ∧ cy < y0 + n
  · rw [h _ (by omega)]
  · simp [hin]

theorem exec_drw_ok {x y : Reg} {n : Nibble} {s : State} (h : n.toNat = 0 ∨ s.i.toNat + n.toNat ≤ 4096) :
    exec (.drw x y n) s = .next (s.drawSprite x y (bytesAt s.mem s.i.toNat n.toNat)) := by
  rw [exec_drw, State.base, readBlock_eq_bytesAt s.mem h, orOutOfBounds_ok]

theorem getV_vf_drawSprite (x y : Reg) (s : State) (rows : List Byte) :
    (s.drawSprite x y rows).getV Reg.vf =
      flagByte (drawRows (startColumn (s.getV x)) (startRow (s.getV y)) rows (s.disp, false)).2 :=
  State.getV_setV_self ..

/-- Settles O28: the cells and the collision of `drawRows`, with its bytes those of the sprite in memory. -/
theorem drawFlipsTheSpriteCells : Obligations.DrawFlipsTheSpriteCells := by
  intro x y n s hfits covers
  refine completes_of_exec (exec_drw_ok hfits) ⟨fun cx cy => ?_, fun r hr => State.getV_setV_of_ne _ hr _, ?_⟩
  · change readCell (drawRows _ _ _ _).1 cx cy = _
    rw [readCell_drawRows, rowsCover_bytesAt, startColumn_eq, startRow_eq]
  · rw [getV_vf_drawSprite, flagByte]
    simp only [drawRows_collision, rowsCover_bytesAt, startColumn_eq, startRow_eq, Bool.false_eq_true, false_or]
    rfl

/-- Settles O29: the block is read before anything is drawn. -/
theorem drawReadsEveryRowInBounds : Obligations.DrawReadsEveryRowInBounds := by
  intro x y n s hn hout
  rw [exec_drw, readBlock_error s.mem s.base _ hn hout, orOutOfBounds_error, firstOutside_eq_max]; rfl

theorem ite_eq_one_iff {p : Prop} [Decidable p] : (if p then 1 else 0 : Byte) = 1 ↔ p := by
  split <;> simp_all

/-- Settles O30: O28 for both draws; flipping a cell twice restores it, and a covered cell is lit between the two exactly if
it was off before. -/
theorem drawTwiceRestoresTheDisplay : Obligations.DrawTwiceRestoresTheDisplay := by
  intro x y n s t u hfirst hdisp hi hmem hx hy covers
  obtain ⟨rows, hread, -⟩ := orOutOfBounds_eq_next.mp ((exec_drw x y n s).symm.trans hfirst)
  obtain ⟨hfits, -⟩ := of_readBlock_ok hread
  obtain ⟨t', hfirst', -, hcells, -, hflag⟩ := drawFlipsTheSpriteCells x y n s hfits
  obtain rfl : t' = t := Host.Outcome.next.inj (hfirst'.symm.trans hfirst)
  obtain ⟨w, hsecond, -, hcells2, -, hflag2⟩ := drawFlipsTheSpriteCells x y n u (by rw [hi]; exact hfits)
  simp only [hi, hx, hy, hdisp, spriteCovers_congr hmem, hcells] at hcells2 hflag2
  refine ⟨w, hsecond, display_ext fun cx cy => ?_, ?_, fun hclear => ?_⟩
  · rw [hcells2, Bool.xor_assoc, Bool.xor_self, Bool.xor_false]
  · rw [hflag2, ite_eq_one_iff]
    refine exists₂_congr fun cx cy => ?_
    change covers cx cy = true ∧ (readCell s.disp cx cy ^^ covers cx cy) = true ↔ _
    cases covers cx cy <;> simp
  · rw [hflag, if_neg]
    rintro ⟨cx, cy, hcov, hlit⟩
    rw [hclear cx cy hcov] at hlit
    cases hlit

end Sys2Proof.Machine
end
